-- ==== Sys2Proof/Word.lean ====
section
/-! DEFINITION. The value containers of 10_state.md: Trit (R20), sequences of a fixed width, Tryte
(R21) and Word (R22), with the constants of 00_scope.md R5 and the names of the error kinds (R210). -/
namespace Sys2Proof

/-- One balanced-ternary digit (10_state.md R20): `-`, `0` or `+`, and no other. -/
inductive Trit where
  /-- The trit `-`, of value -1. -/
  | neg
  /-- The trit `0`, of value 0. -/
  | zero
  /-- The trit `+`, of value +1. -/
  | pos
deriving DecidableEq, Repr

/-- A trit sequence of width `k` (00_scope.md R7). The list's head is position 0, the least
significant trit (20_memory.md R43, decision D2). -/
structure Trits (k : Nat) where
  /-- The trits, position 0 first. -/
  trits : List Trit
  /-- There are exactly `k` of them. -/
  width : trits.length = k
deriving DecidableEq, Repr

/-- Nine trits (10_state.md R21): a container of the converter only. -/
abbrev Tryte := Trits 9

/-- Twenty-seven trits (10_state.md R22): the register, memory cell and instruction width. -/
abbrev Word := Trits 27

/-- The sequence of width `k` with every trit 0. -/
def Trits.zero (k : Nat) : Trits k := ⟨List.replicate k .zero, List.length_replicate⟩

/-- The zero Word (10_state.md R22). -/
def Word.zero : Word := Trits.zero 27

/-- The largest value of a sequence of width `k`, `(3^k - 1)/2` (00_scope.md R5, 40_converter.md R92). -/
def tritsMax (k : Nat) : Nat := (3 ^ k - 1) / 2

/-- `WORD_MAX` of 00_scope.md R5, which 90_conflicts.md C1 settles as 3,812,798,742,493. -/
def wordMax : Nat := tritsMax 27

/-- `IMM_MAX` of 00_scope.md R5, 265,720. -/
def immMax : Nat := tritsMax 12

/-- `OPRAW_MAX` of 00_scope.md R5, 364. -/
def opRawMax : Nat := tritsMax 6

/-- The error kinds of 60_exceptions.md R210, a closed enumeration (decision D14). -/
inductive ErrorKind where
  /-- The converter's failure: the integer does not fit the width. -/
  | outOfRange
  /-- The packer's failure: a component does not fit its field. -/
  | fieldOverflow
  /-- The opcode field names no mnemonic. -/
  | decodeError
  /-- An address outside `0 .. MEM_SIZE-1`; also the kind of a refused program load (R243). -/
  | memoryFault
  /-- CALL on a full call stack, RET on an empty one. -/
  | stackFault
deriving DecidableEq, Repr

end Sys2Proof
end

