-- ==== Sys2Proof/Syntax.lean ====
section
/-! DEFINITION. The instruction set (30_encoding.md R60, R66): eleven mnemonics, one constructor of
`Instr` for each row of the opcode table, each carrying the four operand components of 42_codec.md
R130. -/
namespace Sys2Proof

/-- The closed set of eleven mnemonics (30_encoding.md R66), in the order of its table. -/
inductive Mnemonic where
  | add | addi | sub | subi | ldw | stw | jmp | call | ret | brz | halt
deriving DecidableEq, Repr

/-- Every mnemonic, in the order of the table of 30_encoding.md R66. -/
def Mnemonic.all : List Mnemonic :=
  [.add, .addi, .sub, .subi, .ldw, .stw, .jmp, .call, .ret, .brz, .halt]

/-- An Instruction, the tuple (mnemonic, dest, src1, src2, imm) of 42_codec.md R130. All five
components are always present, those the mnemonic does not use too (30_encoding.md R67), and they
are integers, so that a tuple which `encode` refuses (index -1, immediate 265721) can be written. -/
inductive Instr where
  /-- `ADD Rd,Rs1,Rs2`; imm unused. -/
  | add (dest src1 src2 imm : Int)
  /-- `ADDI Rd,Rs1,Imm`; src2 unused. -/
  | addi (dest src1 src2 imm : Int)
  /-- `SUB Rd,Rs1,Rs2`; imm unused. -/
  | sub (dest src1 src2 imm : Int)
  /-- `SUBI Rd,Rs1,Imm`; src2 unused. -/
  | subi (dest src1 src2 imm : Int)
  /-- `LDW Rd,[Rs1+Imm]`; src2 unused. -/
  | ldw (dest src1 src2 imm : Int)
  /-- `STW [Rs1+Imm],Rs2`; dest unused. -/
  | stw (dest src1 src2 imm : Int)
  /-- `JMP [Rs1+Imm]`; dest and src2 unused. -/
  | jmp (dest src1 src2 imm : Int)
  /-- `CALL [Rs1+Imm]`; dest and src2 unused. -/
  | call (dest src1 src2 imm : Int)
  /-- `RET`; every operand component unused. -/
  | ret (dest src1 src2 imm : Int)
  /-- `BRZ Rs1,Imm`; dest and src2 unused. -/
  | brz (dest src1 src2 imm : Int)
  /-- `HALT`; every operand component unused. -/
  | halt (dest src1 src2 imm : Int)
deriving DecidableEq, Repr

/-- The first component of 42_codec.md R130. -/
def Instr.mnemonic : Instr → Mnemonic
  | .add _ _ _ _ => .add
  | .addi _ _ _ _ => .addi
  | .sub _ _ _ _ => .sub
  | .subi _ _ _ _ => .subi
  | .ldw _ _ _ _ => .ldw
  | .stw _ _ _ _ => .stw
  | .jmp _ _ _ _ => .jmp
  | .call _ _ _ _ => .call
  | .ret _ _ _ _ => .ret
  | .brz _ _ _ _ => .brz
  | .halt _ _ _ _ => .halt

/-- The component `dest` (42_codec.md R130). -/
def Instr.dest : Instr → Int
  | .add d _ _ _ | .addi d _ _ _ | .sub d _ _ _ | .subi d _ _ _ | .ldw d _ _ _ | .stw d _ _ _
  | .jmp d _ _ _ | .call d _ _ _ | .ret d _ _ _ | .brz d _ _ _ | .halt d _ _ _ => d

/-- The component `src1` (42_codec.md R130). -/
def Instr.src1 : Instr → Int
  | .add _ a _ _ | .addi _ a _ _ | .sub _ a _ _ | .subi _ a _ _ | .ldw _ a _ _ | .stw _ a _ _
  | .jmp _ a _ _ | .call _ a _ _ | .ret _ a _ _ | .brz _ a _ _ | .halt _ a _ _ => a

/-- The component `src2` (42_codec.md R130). -/
def Instr.src2 : Instr → Int
  | .add _ _ b _ | .addi _ _ b _ | .sub _ _ b _ | .subi _ _ b _ | .ldw _ _ b _ | .stw _ _ b _
  | .jmp _ _ b _ | .call _ _ b _ | .ret _ _ b _ | .brz _ _ b _ | .halt _ _ b _ => b

/-- The component `imm` (42_codec.md R130). -/
def Instr.imm : Instr → Int
  | .add _ _ _ n | .addi _ _ _ n | .sub _ _ _ n | .subi _ _ _ n | .ldw _ _ _ n | .stw _ _ _ n
  | .jmp _ _ _ n | .call _ _ _ n | .ret _ _ _ n | .brz _ _ _ n | .halt _ _ _ n => n

/-- The Instruction with the given five components (42_codec.md R130). -/
def Instr.make (m : Mnemonic) (dest src1 src2 imm : Int) : Instr :=
  match m with
  | .add => .add dest src1 src2 imm
  | .addi => .addi dest src1 src2 imm
  | .sub => .sub dest src1 src2 imm
  | .subi => .subi dest src1 src2 imm
  | .ldw => .ldw dest src1 src2 imm
  | .stw => .stw dest src1 src2 imm
  | .jmp => .jmp dest src1 src2 imm
  | .call => .call dest src1 src2 imm
  | .ret => .ret dest src1 src2 imm
  | .brz => .brz dest src1 src2 imm
  | .halt => .halt dest src1 src2 imm

end Sys2Proof
end

