-- ==== Sys2Proof/Config.lean ====
section
/-! DEFINITION. What an implementation fixes at construction (00_scope.md R6): `MEM_SIZE`,
`STACK_DEPTH` and `OPMAP`. They are plain data, so that a statement over every state holds for every
value of them. The spec leaves no value free, so this file declares no opaque constant. -/
namespace Sys2Proof

/-- `OPMAP` (00_scope.md R6, 30_encoding.md R66): the raw opcode value of each mnemonic. -/
structure OpMap where
  /-- Raw opcode of ADD. -/
  add : Int
  /-- Raw opcode of ADDI. -/
  addi : Int
  /-- Raw opcode of SUB. -/
  sub : Int
  /-- Raw opcode of SUBI. -/
  subi : Int
  /-- Raw opcode of LDW. -/
  ldw : Int
  /-- Raw opcode of STW. -/
  stw : Int
  /-- Raw opcode of JMP. -/
  jmp : Int
  /-- Raw opcode of CALL. -/
  call : Int
  /-- Raw opcode of RET. -/
  ret : Int
  /-- Raw opcode of BRZ. -/
  brz : Int
  /-- Raw opcode of HALT. -/
  halt : Int
deriving DecidableEq, Repr

/-- `OPMAP(M)`, the raw opcode value of the mnemonic (30_encoding.md R66). -/
def OpMap.raw (m : OpMap) : Mnemonic → Int
  | .add => m.add
  | .addi => m.addi
  | .sub => m.sub
  | .subi => m.subi
  | .ldw => m.ldw
  | .stw => m.stw
  | .jmp => m.jmp
  | .call => m.call
  | .ret => m.ret
  | .brz => m.brz
  | .halt => m.halt

/-- The default map of 30_encoding.md R66 (decision D1, assumption log 4): 1 to 11 in table order. -/
def OpMap.default : OpMap :=
  { add := 1, addi := 2, sub := 3, subi := 4, ldw := 5, stw := 6, jmp := 7, call := 8, ret := 9,
    brz := 10, halt := 11 }

/-- What 00_scope.md R6 asks of a map: every value in [-364, 364], and no value twice. -/
abbrev OpMap.wf (m : OpMap) : Prop :=
  (∀ k ∈ Mnemonic.all, -(opRawMax : Int) ≤ m.raw k ∧ m.raw k ≤ opRawMax) ∧
    (Mnemonic.all.map m.raw).Nodup

/-- The parameters of a CPU, fixed at construction (00_scope.md R6, 10_state.md R35). -/
structure Config where
  /-- `MEM_SIZE`, the number of Words of memory (decision D6). -/
  memSize : Nat
  /-- `STACK_DEPTH`, the capacity of the call stack, 0 allowed (decision D5). -/
  stackDepth : Nat
  /-- `OPMAP` (decision D1). -/
  opmap : OpMap
deriving DecidableEq, Repr

/-- The constraint of 00_scope.md R6 on the parameters. -/
abbrev Config.wf (c : Config) : Prop :=
  1 ≤ c.memSize ∧ c.memSize ≤ wordMax ∧ c.opmap.wf

/-- The standard configuration of 95_test_vectors.md. DESIGN CHOICE (assumption log 1): the spec
gives `MEM_SIZE` and `STACK_DEPTH` no number; the machine after reset takes these. Unsafe for a
statement about the reset state alone. -/
def Config.standard : Config :=
  { memSize := 729, stackDepth := 27, opmap := OpMap.default }

end Sys2Proof
end

