-- ==== Sys2Proof/Machine/Converter.lean ====
section
/-! DEFINITION. The ternary integer converter (40_converter.md), the integer helpers of 00_scope.md R8
and the ordering of Words (R99). -/
namespace Sys2Proof.Machine
open Sys2Proof

/-- `bal_mod(n, m)` of 00_scope.md R8, for an odd modulus. -/
def balMod (n m : Int) : Int := (n + (m - 1) / 2) % m - (m - 1) / 2

/-- `bal_div(n, m)` of 00_scope.md R8, an exact division. -/
def balDiv (n m : Int) : Int := (n - balMod n m) / m

/-- `wrap27(n) = bal_mod(n, 3^27)` of 00_scope.md R8. -/
def wrap27 (n : Int) : Int := balMod n ((3 ^ 27 : Nat) : Int)

/-- `field(n, lo, k)` of 00_scope.md R8, on the integer value of a Word. -/
def intField (n : Int) (lo k : Nat) : Int :=
  balMod (balDiv n ((3 ^ lo : Nat) : Int)) ((3 ^ k : Nat) : Int)

/-- `trit_value` (40_converter.md R91). -/
def tritValue : Trit → Int
  | .neg => -1
  | .zero => 0
  | .pos => 1

/-- `int(ts)` (40_converter.md R92): the sum of `tritValue ts[i] * 3^i`, in Horner's form. -/
def tritsInt : List Trit → Int
  | [] => 0
  | t :: ts => tritValue t + 3 * tritsInt ts

/-- The unique trit congruent to `n` modulo 3 (the digit `d` of 40_converter.md R93). -/
def lowTrit (n : Int) : Trit :=
  if n % 3 = 2 then .neg else if n % 3 = 1 then .pos else .zero

/-- The digit loop of 40_converter.md R93, `k` rounds from the least significant trit. It answers for
every integer; only where `|n| ≤ (3^k - 1)/2` is it `trits_k(n)`. -/
def tritsOfInt : Nat → Int → List Trit
  | 0, _ => []
  | k + 1, n => lowTrit n :: tritsOfInt k ((n - tritValue (lowTrit n)) / 3)

theorem tritsOfInt_length (k : Nat) (n : Int) : (tritsOfInt k n).length = k := by
  induction k generalizing n with
  | zero => rfl
  | succ k ih => simp [tritsOfInt, ih]

/-- `trits_k(n)` (40_converter.md R93): `OutOfRange` when `|n|` exceeds `(3^k - 1)/2`. -/
def tritsFromInt (k : Nat) (n : Int) : Except ErrorKind (Trits k) :=
  if -(tritsMax k : Int) ≤ n ∧ n ≤ tritsMax k then .ok ⟨tritsOfInt k n, tritsOfInt_length k n⟩
  else .error .outOfRange

/-- `tryte_from_int` (40_converter.md R94). -/
def tryteFromInt (n : Int) : Except ErrorKind Tryte := tritsFromInt 9 n

/-- `int_from_tryte` (40_converter.md R95). -/
def intFromTryte (t : Tryte) : Int := tritsInt t.trits

/-- `word_from_int` (40_converter.md R96): it fails, and never wraps, out of range. -/
def wordFromInt (n : Int) : Except ErrorKind Word := tritsFromInt 27 n

/-- `int_from_word` (40_converter.md R97). -/
def intFromWord (w : Word) : Int := tritsInt w.trits

/-- The Word of the digit loop: `word_from_int(n)` wherever that succeeds (every integer the CPU
converts, 40_converter.md R100). -/
def wordOfInt (n : Int) : Word := ⟨tritsOfInt 27 n, tritsOfInt_length 27 n⟩

/-- `w[lo+k-1:lo]` (00_scope.md R7), as a list, position `lo` first. -/
def slice (w : Word) (lo k : Nat) : List Trit := (w.trits.drop lo).take k

theorem ext27_length (ts : List Trit) :
    (ts.take 27 ++ List.replicate (27 - ts.length) Trit.zero).length = 27 := by
  simp only [List.length_append, List.length_take, List.length_replicate]; omega

/-- `ext27(ts)` (00_scope.md R9, 40_converter.md R98): zero trits above a sequence of width at most
27 (of a longer one, which no rule widens, the low 27 trits). -/
def ext27 (ts : List Trit) : Word :=
  ⟨ts.take 27 ++ List.replicate (27 - ts.length) Trit.zero, ext27_length ts⟩

theorem tryteOfWord_length (w : Word) (k : Fin 3) : (slice w (9 * k) 9).length = 9 := by
  have h := w.width
  simp only [slice, List.length_take, List.length_drop]; omega

/-- Tryte `k` of a Word, `w[9k+8:9k]` (10_state.md R24, decision D16). -/
def tryteOfWord (w : Word) (k : Fin 3) : Tryte := ⟨slice w (9 * k) 9, tryteOfWord_length w k⟩

/-- Order on sequences of one width (10_state.md R23, 40_converter.md R99): that of their values. -/
def tritsLt {k : Nat} (a b : Trits k) : Bool := decide (tritsInt a.trits < tritsInt b.trits)

/-- The numeric code of an error kind (60_exceptions.md R210, decision D14). No rule depends on it. -/
def errorCode : ErrorKind → Nat
  | .outOfRange => 1
  | .fieldOverflow => 2
  | .decodeError => 3
  | .memoryFault => 4
  | .stackFault => 5

end Sys2Proof.Machine
end

