-- ==== Sys2Proof/WellFormed.lean ====
section
/-! DEFINITION. When an Instruction is in range (42_codec.md R130). Exactly the in-range Instructions
have a Word. -/
namespace Sys2Proof

/-- A register index is in range: 0 to 26 (42_codec.md R130, 30_encoding.md R64). -/
abbrev regInRange (r : Int) : Prop := 0 ≤ r ∧ r ≤ 26

/-- An immediate is in range: -265720 to 265720 (42_codec.md R130, 30_encoding.md R65). -/
abbrev immInRange (n : Int) : Prop := -(immMax : Int) ≤ n ∧ n ≤ immMax

/-- An Instruction is in range (42_codec.md R130): all four operand components are, used or not. -/
abbrev Instr.WellFormed (i : Instr) : Prop :=
  regInRange i.dest ∧ regInRange i.src1 ∧ regInRange i.src2 ∧ immInRange i.imm

end Sys2Proof
end

