-- ==== Sys2Proof/Decode.lean ====
section
/-! DEFINITION. The trit-field instruction codec (42_codec.md) over the layout of 30_encoding.md R61:
the unpacker, the packer, the program packer, and the host's numbered reading of a table row. -/
namespace Sys2Proof
open Machine

/-- A field of an instruction Word: the signed value of the trits at positions `lo` to `lo+k-1`
(30_encoding.md R63). -/
def fieldOf (w : Word) (lo k : Nat) : Int := tritsInt (slice w lo k)

/-- The raw opcode, trits 21 to 26 (30_encoding.md R61). -/
def opcodeField (w : Word) : Int := fieldOf w 21 6

/-- The raw dest field, trits 18 to 20 (30_encoding.md R61). -/
def destField (w : Word) : Int := fieldOf w 18 3

/-- The raw src1 field, trits 15 to 17 (30_encoding.md R61). -/
def src1Field (w : Word) : Int := fieldOf w 15 3

/-- The raw src2 field, trits 12 to 14 (30_encoding.md R61). -/
def src2Field (w : Word) : Int := fieldOf w 12 3

/-- The immediate, trits 0 to 11 (30_encoding.md R65). -/
def immField (w : Word) : Int := fieldOf w 0 12

/-- The register that a raw field value names, `v + 13` (30_encoding.md R64). -/
def regOfRaw (v : Int) : Int := v + 13

/-- The raw field value that names a register, `r - 13` (30_encoding.md R64). -/
def rawOfReg (r : Int) : Int := r - 13

/-- The inverse of `OPMAP` (30_encoding.md R66): the mnemonic with this raw opcode, if there is one. -/
def OpMap.mnemonicOf (m : OpMap) (op : Int) : Option Mnemonic :=
  Mnemonic.all.find? (fun k => decide (m.raw k = op))

/-- `decode` (42_codec.md R131): total on Words; `DecodeError` exactly on an undefined opcode. -/
def decode (m : OpMap) (w : Word) : Except ErrorKind Instr :=
  match m.mnemonicOf (opcodeField w) with
  | none => .error .decodeError
  | some k =>
    .ok (Instr.make k (regOfRaw (destField w)) (regOfRaw (src1Field w)) (regOfRaw (src2Field w))
      (immField w))

/-- The five fields of an instruction Word, position 0 first (42_codec.md R133). -/
def packTrits (op d a b imm : Int) : List Trit :=
  tritsOfInt 12 imm ++ (tritsOfInt 3 b ++ (tritsOfInt 3 a ++ (tritsOfInt 3 d ++ tritsOfInt 6 op)))

theorem packTrits_length (op d a b imm : Int) : (packTrits op d a b imm).length = 27 := by
  simp [packTrits, tritsOfInt_length]

/-- `encode` (42_codec.md R133): `FieldOverflow` when any component is out of range, used or not. -/
def encode (m : OpMap) (i : Instr) : Except ErrorKind Word :=
  if i.WellFormed then
    .ok ⟨packTrits (m.raw i.mnemonic) (rawOfReg i.dest) (rawOfReg i.src1) (rawOfReg i.src2) i.imm,
      packTrits_length _ _ _ _ _⟩
  else .error .fieldOverflow

/-- `encode_program` (42_codec.md R136): every element encoded in order, or the kind of the first
failure with its index, counted from 0 (decision D20). -/
def encodeProgram (m : OpMap) : List Instr → Except (ErrorKind × Nat) (List Word)
  | [] => .ok []
  | i :: is =>
    match encode m i with
    | .error e => .error (e, 0)
    | .ok w =>
      match encodeProgram m is with
      | .error (e, k) => .error (e, k + 1)
      | .ok ws => .ok (w :: ws)

/-- The Word that stands for a table row's number. The table numbers a Word by its integer value
(30_encoding.md R82: `match` is `opcode_raw * 3^21`, and there are no bits), so `w` is that value,
whatever number of bits is named; a number above `WORD_MAX` is no Word (assumption log 6). -/
def tableWord (_nbits w : Nat) : Option Word := (wordFromInt w).toOption

/-- The instruction the decoder reads, under the default `OPMAP`, from the Word that a table row's
number stands for; none where there is no such Word or it does not decode (assumption log 6). -/
def decodeTableWord (nbits w : Nat) : Option Instr :=
  (tableWord nbits w).bind (fun v => (decode OpMap.default v).toOption)

end Sys2Proof
end

