-- ==== Sys2Proof/Machine/Adder.lean ====
section
/-! DEFINITION. The balanced-ternary full-adder and negation blocks (41_adder_negation.md). -/
namespace Sys2Proof.Machine
open Sys2Proof

/-- The trit of value `n`, for `n` in [-1, 1]. -/
def tritOfInt (n : Int) : Trit :=
  if n = 1 then .pos else if n = -1 then .neg else .zero

/-- The full-adder cell `fa(a, b, c) -> (digit, carry)` of R111: with the raw sum of the three inputs,
the digit is `bal_mod(raw, 3)` and the carry `(raw - digit)/3`. -/
def fullAdd (a b c : Trit) : Trit × Trit :=
  let raw := tritValue a + tritValue b + tritValue c
  let digit := balMod raw 3
  (tritOfInt digit, tritOfInt ((raw - digit) / 3))

/-- The chain of cells of R113, from position 0 upward, `c` being the carry into its first cell: the
digits and the carry out of the last cell. -/
def addChain : Trit → List Trit → List Trit → List Trit × Trit
  | c, a :: as, b :: bs =>
    let cell := fullAdd a b c
    let rest := addChain cell.2 as bs
    (cell.1 :: rest.1, rest.2)
  | c, _, _ => ([], c)

theorem addChain_length (c : Trit) (as bs : List Trit) :
    (addChain c as bs).1.length = min as.length bs.length := by
  induction as generalizing c bs with
  | nil => simp [addChain]
  | cons a as ih =>
    cases bs with
    | nil => simp [addChain]
    | cons b bs => simp [addChain, ih]

/-- `add(a, b)` (R113): carry 0 into position 0, the carry out of position 26 dropped. -/
def addWord (a b : Word) : Word :=
  ⟨(addChain .zero a.trits b.trits).1, by rw [addChain_length, a.width, b.width]; rfl⟩

/-- The inverter of one trit (R115): `+` and `-` change places, `0` stays. -/
def negTrit : Trit → Trit
  | .neg => .pos
  | .zero => .zero
  | .pos => .neg

/-- `negate(a)` (R115): every trit flipped. -/
def negateWord (a : Word) : Word := ⟨a.trits.map negTrit, by rw [List.length_map, a.width]⟩

/-- `subtract(a, b) = add(a, negate(b))` (R116). -/
def subtractWord (a b : Word) : Word := addWord a (negateWord b)

end Sys2Proof.Machine
end

