-- ==== Sys2Proof/Machine/State.lean ====
section
/-! DEFINITION. The CPU state (10_state.md R35) as plain data, the outcomes of a step, construction
(70_reset_and_hazards.md R240) and the state after reset (10_state.md R36). -/
namespace Sys2Proof.Machine
open Sys2Proof

/-- The three CPU faults of 60_exceptions.md R210. The step TAKES a fault as R216 says: its outcome is
a NEXT state that is halted and holds the fault record, so no step ends in `Host.Outcome.fault`. -/
inductive Fault where
  /-- Raised by the fetch when `pc` is no valid address and by LDW and STW when the effective address
  is not (R211). Safe: it is the spec's own fault, taken as the spec says. -/
  | memoryFault
  /-- Raised by the decode stage when the opcode field names no mnemonic (R212). Safe, as above. -/
  | decodeError
  /-- Raised by CALL on a full call stack and by RET on an empty one (R213). Safe, as above. -/
  | stackFault
deriving DecidableEq, Repr

/-- Why an instruction is given no meaning. -/
inductive Refusal where
  /-- The dispatch's rejection of an instruction that has no meaning yet, by its mnemonic. No arm
  raises it: every instruction of the table has its meaning. Safe. -/
  | notModelled (mnemonic : String)
deriving DecidableEq, Repr

/-- The fault record of a faulting step (60_exceptions.md R217). -/
structure FaultRecord where
  /-- The kind of fault. -/
  kind : Fault
  /-- The program counter at the start of the step. -/
  pc : Int
  /-- The fetched Word; none for a fetch fault. -/
  word : Option Word
deriving DecidableEq, Repr

/-- Memory (10_state.md R33): a list of (address, Word) pairs. The unit is the Word, since this memory
has no bytes (20_memory.md R43; assumption log 3). An address that is not listed holds the zero Word,
the spec's value for a Word that nothing has written (10_state.md R36; assumption log 2). -/
abbrev Memory := List (Nat × Word)

/-- The canonical form of a memory: addresses strictly rising, and the zero Word never listed. -/
abbrev Memory.wf (m : Memory) : Prop :=
  m.Pairwise (fun x y => x.1 < y.1) ∧ ∀ x ∈ m, x.2 ≠ Word.zero

/-- The CPU state of 10_state.md R35, with the parameters fixed at construction and the latch that
60_exceptions.md R217 allows. -/
structure State where
  /-- `MEM_SIZE`, `STACK_DEPTH` and `OPMAP` (00_scope.md R6); no step changes them. -/
  cfg : Config
  /-- The program counter, a Word-ranged integer that may be no valid address (10_state.md R29). -/
  pc : Int
  /-- R1 to R26 (10_state.md R25); register `i` stands at place `i - 1`. R0 takes no storage. -/
  regs : Vector Word 26
  /-- The one memory of instructions and data (20_memory.md R40). -/
  mem : Memory
  /-- The call stack (10_state.md R31), newest entry first; `depth` is its length. -/
  stack : List Int
  /-- HALTED is true, RUNNING is false (10_state.md R32). -/
  halted : Bool
  /-- The model's own latch of the fault record (60_exceptions.md R217, decision D19; assumption
  log 5). No instruction reads it. -/
  fault : Option FaultRecord
deriving DecidableEq, Repr

/-- A CPU as construction leaves it (10_state.md R36, 70_reset_and_hazards.md R240). -/
def State.fresh (c : Config) : State :=
  { cfg := c, pc := 0, regs := Vector.replicate 26 Word.zero, mem := [], stack := [],
    halted := false, fault := none }

/-- The machine right after reset: construction is the only reset (70_reset_and_hazards.md R240). The
parameters are those of the standard configuration (assumption log 1). -/
def State.reset : State := State.fresh Config.standard

/-- The outcome of one step. -/
abbrev StepOutcome := Host.Outcome State Fault Refusal

end Sys2Proof.Machine
end

