-- ==== Sys2Proof/Machine/Ops.lean ====
section
/-! DEFINITION. The named operations over registers, memory, the call stack and the program counter
(00_scope.md R9), the fetch (43_fde_engine.md R152), and taking a fault (60_exceptions.md R216). There
is no return from a fault (R218), so no operation stands for one. -/
namespace Sys2Proof.Machine
open Sys2Proof

/-- `x[i]` (10_state.md R26): R0 reads the zero Word. An index outside 0 to 26 names no register and
no Word decodes to one (30_encoding.md R78); it reads the zero Word too (assumption log 14). -/
def State.reg (s : State) (i : Int) : Word :=
  if i ≤ 0 then Word.zero else (s.regs[i.toNat - 1]?).getD Word.zero

/-- `x[i] <- v` (10_state.md R27): a write to R0 is discarded, and so is one to an index that names no
register (assumption log 14). -/
def State.setReg (s : State) (i : Int) (v : Word) : State :=
  { s with regs := if i ≤ 0 then s.regs else s.regs.setIfInBounds (i.toNat - 1) v }

/-- `pc <- t` (00_scope.md R9): the target is not checked (10_state.md R29). -/
def State.setPc (s : State) (t : Int) : State := { s with pc := t }

/-- `pc <- pc + 1` (10_state.md R30, 43_fde_engine.md R155). -/
def State.advance (s : State) : State := s.setPc (s.pc + 1)

/-- The bounds check of 20_memory.md R42: `0 <= a < MEM_SIZE`. -/
def State.validAddr (s : State) (a : Int) : Bool := decide (0 ≤ a ∧ a < s.cfg.memSize)

/-- The Word a memory holds at an address: the zero Word where none is listed. -/
def Memory.read : Memory → Nat → Word
  | [], _ => Word.zero
  | (b, w) :: rest, a => if b = a then w else Memory.read rest a

/-- A memory without the entry of an address. -/
def Memory.erase (m : Memory) (a : Nat) : Memory := m.filter (fun x => decide (x.1 ≠ a))

/-- A memory with one more entry, put before the first higher address. -/
def Memory.insert : Memory → Nat → Word → Memory
  | [], a, v => [(a, v)]
  | (b, w) :: rest, a, v =>
    if a < b then (a, v) :: (b, w) :: rest else (b, w) :: Memory.insert rest a v

/-- A memory with the Word at one address replaced (20_memory.md R45); the canonical form lists no
zero Word, so writing the zero Word removes the entry. -/
def Memory.write (m : Memory) (a : Nat) (v : Word) : Memory :=
  if v = Word.zero then m.erase a else (m.erase a).insert a v

/-- `MemRead(a, 1)` (20_memory.md R44), used after the bounds check. -/
def State.memRead (s : State) (a : Nat) : Word := s.mem.read a

/-- `MemWrite(a, 1, v)` (20_memory.md R45), used after the bounds check. -/
def State.memWrite (s : State) (a : Nat) (v : Word) : State := { s with mem := s.mem.write a v }

/-- `depth` of the call stack (10_state.md R31). -/
def State.depth (s : State) : Nat := s.stack.length

/-- `push(v)` (10_state.md R31), used when `depth < STACK_DEPTH`. -/
def State.push (s : State) (v : Int) : State := { s with stack := v :: s.stack }

/-- What `pop()` leaves (10_state.md R31): the call stack without its newest entry. -/
def State.dropTop (s : State) : State := { s with stack := s.stack.tail }

/-- `halted <- true` (00_scope.md R9). -/
def State.halt (s : State) : State := { s with halted := true }

/-- The fetch (43_fde_engine.md R152): the Word at `pc`, or none when `pc` is no valid address. -/
def State.fetch (s : State) : Option Word :=
  if s.validAddr s.pc then some (s.memRead s.pc.toNat) else none

/-- The record that a fault raised in this state hands to the caller (60_exceptions.md R217): `pc` and
the Word fetched from it are those of the start of the step, since every check precedes every write
(decision D12). -/
def State.record (s : State) (k : Fault) : FaultRecord := { kind := k, pc := s.pc, word := s.fetch }

/-- Taking a fault, `raise K(pc, word)` (60_exceptions.md R216): `halted` is set, the record is handed
over (into the latch, assumption log 5), and everything else keeps the value it had. -/
def State.raise (s : State) (k : Fault) : State :=
  { s with halted := true, fault := some (s.record k) }

end Sys2Proof.Machine
end

