-- ==== Sys2Proof/Machine/Operands.lean ====
section
/-! DEFINITION. The operand forms: the immediate as a Word (30_encoding.md R65), the effective address
(45_memory_instructions.md R180) and the target of a control transfer (46_control_instructions.md
R190). -/
namespace Sys2Proof.Machine
open Sys2Proof

/-- The immediate as a Word, `word_from_int(imm)` (30_encoding.md R65, 40_converter.md R100: it never
fails, since an immediate field holds at most 265720). -/
def immWord (imm : Int) : Word := wordOfInt imm

/-- `ea(src1, imm) = int_from_word(add(x[src1], word_from_int(imm)))` (45_memory_instructions.md
R180). -/
def State.ea (s : State) (src1 imm : Int) : Int :=
  intFromWord (addWord (s.reg src1) (immWord imm))

/-- `target(JMP | CALL)` (46_control_instructions.md R190, decision D8): formed as an effective
address, absolute and unchecked. -/
def State.target (s : State) (src1 imm : Int) : Int := s.ea src1 imm

/-- `target(BRZ)` (46_control_instructions.md R190, decision D8): the immediate alone. -/
def branchTarget (imm : Int) : Int := imm

end Sys2Proof.Machine
end

