-- ==== Sys2Proof/Machine/Arith.lean ====
section
/-! DEFINITION. ADD, ADDI, SUB, SUBI (44_arith_instructions.md). None has a fault: overflow wraps
(41_adder_negation.md R114). -/
namespace Sys2Proof.Machine
open Sys2Proof

/-- The common end of the four: the result into `dest`, then `pc + 1` (43_fde_engine.md R155). -/
def State.finish (s : State) (dest : Int) (v : Word) : State := (s.setReg dest v).advance

/-- ADD Rd,Rs1,Rs2 (R170): `Rd ← add(Rs1, Rs2)`. -/
def execAdd (dest src1 src2 : Int) (s : State) : StepOutcome :=
  .next (s.finish dest (addWord (s.reg src1) (s.reg src2)))

/-- ADDI Rd,Rs1,Imm (R171): `Rd ← add(Rs1, word_from_int(Imm))`. -/
def execAddi (dest src1 imm : Int) (s : State) : StepOutcome :=
  .next (s.finish dest (addWord (s.reg src1) (immWord imm)))

/-- SUB Rd,Rs1,Rs2 (R172): `Rd ← subtract(Rs1, Rs2)`. -/
def execSub (dest src1 src2 : Int) (s : State) : StepOutcome :=
  .next (s.finish dest (subtractWord (s.reg src1) (s.reg src2)))

/-- SUBI Rd,Rs1,Imm (R173): `Rd ← subtract(Rs1, word_from_int(Imm))`. -/
def execSubi (dest src1 imm : Int) (s : State) : StepOutcome :=
  .next (s.finish dest (subtractWord (s.reg src1) (immWord imm)))

end Sys2Proof.Machine
end

