-- ==== Sys2Proof/Machine/Flags.lean ====
section
/-! DEFINITION. Conditions computed from Words. The hardware has no status flag (10_state.md R34,
41_adder_negation.md R118): nothing here is state. What stands here is the dropped carry, which no
instruction can read, and the test that BRZ makes. -/
namespace Sys2Proof.Machine
open Sys2Proof

/-- The dropped final carry `c[27]` of `add(a, b)` (41_adder_negation.md R118): not stored, not
reported, not readable by any instruction. -/
def droppedCarry (a b : Word) : Trit := (addChain .zero a.trits b.trits).2

/-- The test of BRZ, `int_from_word(w) == 0` (46_control_instructions.md R194). -/
def wordIsZero (w : Word) : Bool := decide (intFromWord w = 0)

end Sys2Proof.Machine
end

