-- ==== Sys2Proof/Machine/Control.lean ====
section
/-! DEFINITION. JMP, CALL, RET, BRZ, HALT (46_control_instructions.md). A target is put in `pc`
unchecked; the next fetch checks it (R190). -/
namespace Sys2Proof.Machine
open Sys2Proof

/-- JMP Target (R191). -/
def execJmp (src1 imm : Int) (s : State) : StepOutcome :=
  .next (s.setPc (s.target src1 imm))

/-- CALL Target (R192): the target is read before any write, and StackFault precedes the push. -/
def execCall (src1 imm : Int) (s : State) : StepOutcome :=
  if s.depth < s.cfg.stackDepth then
    .next ((s.push (s.pc + 1)).setPc (s.target src1 imm))
  else .next (s.raise .stackFault)

/-- RET (R193). -/
def execRet (s : State) : StepOutcome :=
  match s.stack with
  | [] => .next (s.raise .stackFault)
  | v :: _ => .next (s.dropTop.setPc v)

/-- BRZ Rs1,Target (R194). -/
def execBrz (src1 imm : Int) (s : State) : StepOutcome :=
  if wordIsZero (s.reg src1) then .next (s.setPc (branchTarget imm)) else .next s.advance

/-- HALT (R195): `pc` stays at the HALT (decision D12), and no fault record is reported. -/
def execHalt (s : State) : StepOutcome := .next s.halt

end Sys2Proof.Machine
end

