-- ==== Sys2Proof/Machine/LoadStore.lean ====
section
/-! DEFINITION. LDW and STW (45_memory_instructions.md). The bounds check precedes every write, so a
faulting access changes nothing but `halted` (60_exceptions.md R216). -/
namespace Sys2Proof.Machine
open Sys2Proof

/-- LDW Rd,[Rs1+Imm] (R181). The check and the read are made whatever `dest` is (decision D23). -/
def execLdw (dest src1 imm : Int) (s : State) : StepOutcome :=
  if s.validAddr (s.ea src1 imm) then
    .next ((s.setReg dest (s.memRead (s.ea src1 imm).toNat)).advance)
  else .next (s.raise .memoryFault)

/-- STW [Rs1+Imm],Rs2 (R182). -/
def execStw (src1 src2 imm : Int) (s : State) : StepOutcome :=
  if s.validAddr (s.ea src1 imm) then
    .next ((s.memWrite (s.ea src1 imm).toNat (s.reg src2)).advance)
  else .next (s.raise .memoryFault)

end Sys2Proof.Machine
end

