-- ==== Sys2Proof/Machine/Dispatch.lean ====
section
/-! DEFINITION. The dispatch of 43_fde_engine.md R154: one arm per mnemonic and no default arm. An arm
passes on only the components the mnemonic uses (30_encoding.md R67). -/
namespace Sys2Proof.Machine
open Sys2Proof

def exec (i : Instr) (s : State) : Host.Outcome State Fault Refusal :=
  match i with
  | .add dest src1 src2 _ => Sys2Proof.Machine.execAdd dest src1 src2 s
  | .addi dest src1 _ imm => Sys2Proof.Machine.execAddi dest src1 imm s
  | .sub dest src1 src2 _ => Sys2Proof.Machine.execSub dest src1 src2 s
  | .subi dest src1 _ imm => Sys2Proof.Machine.execSubi dest src1 imm s
  | .ldw dest src1 _ imm => Sys2Proof.Machine.execLdw dest src1 imm s
  | .stw _ src1 src2 imm => Sys2Proof.Machine.execStw src1 src2 imm s
  | .jmp _ src1 _ imm => Sys2Proof.Machine.execJmp src1 imm s
  | .call _ src1 _ imm => Sys2Proof.Machine.execCall src1 imm s
  | .ret _ _ _ _ => Sys2Proof.Machine.execRet s
  | .brz _ src1 _ imm => Sys2Proof.Machine.execBrz src1 imm s
  | .halt _ _ _ _ => Sys2Proof.Machine.execHalt s

end Sys2Proof.Machine
end

