-- ==== Sys2Proof/Machine/Engine.lean ====
section
/-! DEFINITION. The fetch-decode-execute engine (43_fde_engine.md): fetch, decode, dispatch, in that
order, ending at the first check that fails (60_exceptions.md R215). -/
namespace Sys2Proof.Machine
open Sys2Proof

/-- Decode and dispatch of the fetched Word (R151 steps 2 and 3, R153, R154). -/
def decodeAndRun (w : Word) (s : State) : StepOutcome :=
  match decode s.cfg.opmap w with
  | .error _ => .next (s.raise .decodeError)
  | .ok i => exec i s

/-- One iteration of the loop on a RUNNING CPU (R151). -/
def runningStep (s : State) : StepOutcome :=
  match s.fetch with
  | none => .next (s.raise .memoryFault)
  | some w => decodeAndRun w s

/-- One step (R150): of a HALTED CPU it changes nothing (R156, decision D13). -/
def engineStep (s : State) : StepOutcome := if s.halted then .next s else runningStep s

/-- The Word put where the next step fetches. What that fetch needs is a RUNNING CPU with no latched
record and a valid `pc`: a `pc` outside memory becomes 0 (assumption log 6). -/
def State.placeWord (s : State) (v : Word) : State :=
  let p := if s.validAddr s.pc then s.pc else 0
  { s.memWrite p.toNat v with pc := p, halted := false, fault := none }

end Sys2Proof.Machine
end

