-- ==== Sys2Proof/Machine/Step.lean ====
section
/-! DEFINITION. The step of the host's interface (43_fde_engine.md R150), and the host's way to place
one instruction where it is fetched. -/
namespace Sys2Proof.Machine
open Sys2Proof

/-- One step of the CPU (43_fde_engine.md R150, R151, R156). -/
def step (s : State) : Host.Outcome State Fault Refusal := engineStep s

/-- The state with the Word that a table row's number stands for placed where the next step fetches
(assumption log 6). A number that stands for no Word places nothing. -/
def State.withFetchWord (s : State) (nbits w : Nat) : State :=
  match tableWord nbits w with
  | none => s
  | some v => s.placeWord v

end Sys2Proof.Machine
end

