-- ==== Sys2Proof/Machine/Listing.lean ====
section
/-! DEFINITION. The operand notation and the listing conventions of 30_encoding.md R80 and R81, which
serve listings only: the hardware reads none of it. -/
namespace Sys2Proof.Machine
open Sys2Proof

/-- The Instruction as listings pack it (30_encoding.md R81, decision D15): an unused register
component is index 0 and an unused immediate 0 (the unused ones are those of R67). -/
def listed : Instr → Instr
  | .add d a b _ => .add d a b 0
  | .addi d a _ n => .addi d a 0 n
  | .sub d a b _ => .sub d a b 0
  | .subi d a _ n => .subi d a 0 n
  | .ldw d a _ n => .ldw d a 0 n
  | .stw _ a b n => .stw 0 a b n
  | .jmp _ a _ n => .jmp 0 a 0 n
  | .call _ a _ n => .call 0 a 0 n
  | .ret _ _ _ _ => .ret 0 0 0 0
  | .brz _ a _ n => .brz 0 a 0 n
  | .halt _ _ _ _ => .halt 0 0 0 0

/-- `Rn`, the index in decimal (30_encoding.md R80). -/
def regName (r : Int) : String := "R" ++ toString r

/-- `[Rs1+Imm]` (30_encoding.md R80), a negative offset written `[Rs1-n]`. -/
def addressName (a n : Int) : String :=
  "[" ++ regName a ++ (if n < 0 then "" else "+") ++ toString n ++ "]"

/-- The target of JMP and CALL (30_encoding.md R80): `Imm` when Rs1 is R0, else `[Rs1+Imm]`. -/
def targetName (a n : Int) : String := if a = 0 then toString n else addressName a n

/-- The assembly notation of an Instruction (30_encoding.md R80). -/
def listing : Instr → String
  | .add d a b _ => "ADD " ++ regName d ++ "," ++ regName a ++ "," ++ regName b
  | .addi d a _ n => "ADDI " ++ regName d ++ "," ++ regName a ++ "," ++ toString n
  | .sub d a b _ => "SUB " ++ regName d ++ "," ++ regName a ++ "," ++ regName b
  | .subi d a _ n => "SUBI " ++ regName d ++ "," ++ regName a ++ "," ++ toString n
  | .ldw d a _ n => "LDW " ++ regName d ++ "," ++ addressName a n
  | .stw _ a b n => "STW " ++ addressName a n ++ "," ++ regName b
  | .jmp _ a _ n => "JMP " ++ targetName a n
  | .call _ a _ n => "CALL " ++ targetName a n
  | .ret _ _ _ _ => "RET"
  | .brz _ a _ n => "BRZ " ++ regName a ++ "," ++ toString n
  | .halt _ _ _ _ => "HALT"

end Sys2Proof.Machine
end

