-- ==== Sys2Proof/Machine/Run.lean ====
section
/-! DEFINITION. The host's side of the machine (70_reset_and_hazards.md R247): construction, program
load, what a step reports, and `run` (43_fde_engine.md R150, R157, R159). -/
namespace Sys2Proof.Machine
open Sys2Proof

/-- `construct(MEM_SIZE, STACK_DEPTH, OPMAP)` (70_reset_and_hazards.md R240): none when the parameters
are not within 00_scope.md R6 (assumption log 15). -/
def construct (c : Config) : Option State := if c.wf then some (State.fresh c) else none

/-- The writes of a program load: `stream[k]` at address `base + k` (70_reset_and_hazards.md R243). -/
def Memory.writeStream : Memory → Nat → List Word → Memory
  | m, _, [] => m
  | m, base, w :: ws => Memory.writeStream (m.write base w) (base + 1) ws

/-- `load(cpu, stream, base)` (70_reset_and_hazards.md R243, decision D11): refused with kind
MemoryFault when the stream does not fit; else memory, `pc`, the call stack and `halted` are set and
the registers are left alone. The model's own latch is cleared (assumption log 5). -/
def load (s : State) (stream : List Word) (base : Int) : Except ErrorKind State :=
  if base < 0 ∨ (s.cfg.memSize : Int) < base + stream.length then .error .memoryFault
  else
    .ok { s with mem := s.mem.writeStream base.toNat stream, pc := base, stack := [],
                 halted := false, fault := none }

/-- What one step reports to the caller (43_fde_engine.md R150, R156): the fault record if this step
faulted, and none for a step that did not, of a HALTED CPU too. The step is taken from an empty latch, so
that the record found there afterwards is this step's own (assumption log 5). -/
def report (s : State) : Option FaultRecord :=
  match step { s with fault := none } with
  | .next t => t.fault
  | _ => none

/-- `run(cpu)` (43_fde_engine.md R157) with fuel (assumption log 16): the final state and the record
of the last step if it faulted, or none when the fuel ends before the CPU halts. -/
def run : Nat → State → Option (State × Option FaultRecord)
  | 0, s => if s.halted then some (s, none) else none
  | n + 1, s =>
    if s.halted then some (s, none)
    else
      match step s with
      | .next t => if t.halted then some (t, report s) else run n t
      | _ => none

end Sys2Proof.Machine
end

