-- ==== Sys2Proof/Safety.lean ====
section
/-! DEFINITION. What the claims call a good state, a good end, and leaving a part of the state alone
(10_state.md, 43_fde_engine.md R159, 60_exceptions.md R216). -/
namespace Sys2Proof.Machine
open Sys2Proof

/-- The program counter fits a Word (10_state.md R29). -/
abbrev State.pcInRange (s : State) : Prop := -(wordMax : Int) ≤ s.pc ∧ s.pc ≤ wordMax

/-- Memory is in its canonical form and holds nothing outside `0 .. MEM_SIZE-1` (10_state.md R33). -/
abbrev State.memOk (s : State) : Prop := s.mem.wf ∧ ∀ x ∈ s.mem, x.1 < s.cfg.memSize

/-- The call stack is within its capacity, and each entry is the address after a CALL that was fetched
(10_state.md R31, 46_control_instructions.md R192). -/
abbrev State.stackOk (s : State) : Prop :=
  s.depth ≤ s.cfg.stackDepth ∧ ∀ v ∈ s.stack, 1 ≤ v ∧ v ≤ (s.cfg.memSize : Int)

/-- A latched record belongs to a halted CPU and names its `pc` and the Word there (60_exceptions.md
R216, R217). -/
abbrev State.latchOk (s : State) : Prop :=
  ∀ r ∈ s.fault, s.halted = true ∧ r.pc = s.pc ∧ r.word = s.fetch

/-- The states that construction, load and steps reach have at least these properties. -/
abbrev State.wf (s : State) : Prop :=
  s.cfg.wf ∧ s.pcInRange ∧ s.memOk ∧ s.stackOk ∧ s.latchOk

/-- The run has ended normally: by HALT, with no fault record (43_fde_engine.md R159). -/
abbrev State.endedNormally (s : State) : Prop := s.halted = true ∧ s.fault = none

/-- The run has ended in a fault (43_fde_engine.md R159). -/
abbrev State.endedInFault (s : State) : Prop := s.halted = true ∧ s.fault ≠ none

/-- Every register reads in `t` as it reads in `s`. -/
abbrev State.keepsRegs (s t : State) : Prop := ∀ r, regInRange r → t.reg r = s.reg r

/-- Every register but `d` reads in `t` as it reads in `s`. -/
abbrev State.keepsRegsBut (s t : State) (d : Int) : Prop :=
  ∀ r, regInRange r → r ≠ d → t.reg r = s.reg r

/-- Every address of memory reads in `t` as it reads in `s`. -/
abbrev State.keepsMem (s t : State) : Prop := ∀ x : Nat, t.memRead x = s.memRead x

/-- The call stack, the halted flag, the latch and the parameters are in `t` what they are in `s`. -/
abbrev State.keepsControl (s t : State) : Prop :=
  t.stack = s.stack ∧ t.halted = s.halted ∧ t.fault = s.fault ∧ t.cfg = s.cfg

/-- `t` is `s` after taking a fault of kind `k` (60_exceptions.md R216, R217): halted, with the record
(kind, pc, fetched Word), and everything else as it was. -/
abbrev State.faultsTo (s t : State) (k : Fault) : Prop :=
  t.halted = true ∧ t.fault = some { kind := k, pc := s.pc, word := s.fetch } ∧ t.pc = s.pc ∧
    s.keepsRegs t ∧ s.keepsMem t ∧ t.stack = s.stack ∧ t.cfg = s.cfg

/-- A RUNNING CPU whose `pc` is no valid address takes a MemoryFault at its next step
(46_control_instructions.md R190: a target is checked by the next fetch). -/
abbrev State.nextFetchFaultsIfInvalid (t : State) : Prop :=
  t.halted = false → (t.pc < 0 ∨ (t.cfg.memSize : Int) ≤ t.pc) →
    ∃ u, step t = .next u ∧ t.faultsTo u .memoryFault

end Sys2Proof.Machine
end

