-- ==== Sys2Proof/Certificates/Slice0/Obligations.lean ====
section
/-! DEFINITION. The statements for the provers, each from the numbered rules of spec/ that its docstring
names. -/
open Sys2Proof Sys2Proof.Machine

/-! ## The converter (40_converter.md) -/

/-- R92: the value of a sequence of any width is the sum of its trits' values by their place; it is
within `±(3^k - 1)/2`, with equality exactly for the all-`+` and the all-`-` sequences; the rule's
example `+---0` is 42. The bound and its equality cases are the spec's own inference (R92, '[derived]').
-/
def Obligations.SequenceValueIsPlaceValueSum : Prop :=
  (∀ ts : List Trit,
    tritsInt ts = ((List.range ts.length).map
      (fun i => tritValue (ts.getD i .zero) * 3 ^ i)).sum ∧
    2 * |tritsInt ts| ≤ 3 ^ ts.length - 1 ∧
    (2 * tritsInt ts = 3 ^ ts.length - 1 ↔ ∀ t ∈ ts, t = .pos) ∧
    (2 * tritsInt ts = -(3 ^ ts.length - 1) ↔ ∀ t ∈ ts, t = .neg)) ∧
  tritsInt [.zero, .neg, .neg, .neg, .pos] = 42

/-- R97: `word_from_int` and `int_from_word` undo each other, and a Word's value is in range. -/
def Obligations.WordConversionIsBijective : Prop :=
  (∀ n : Int, |n| ≤ 3812798742493 → ∃ w, wordFromInt n = .ok w ∧ intFromWord w = n) ∧
  (∀ w : Word, wordFromInt (intFromWord w) = .ok w) ∧
  (∀ w : Word, |intFromWord w| ≤ 3812798742493)

/-- R96: `word_from_int(n)` is the Word of value `n`, fails with OutOfRange exactly when `|n|` exceeds
3,812,798,742,493, and so never wraps; with the rule's corner cases. -/
def Obligations.WordFromIntFailsOutOfRange : Prop :=
  (∀ n : Int, if |n| ≤ 3812798742493 then ∃ w, wordFromInt n = .ok w ∧ intFromWord w = n
    else wordFromInt n = .error .outOfRange) ∧
  wordFromInt 0 = .ok Word.zero ∧
  (wordFromInt 3812798742493).map (fun w => w.trits) = .ok (List.replicate 27 .pos) ∧
  (wordFromInt (-3812798742493)).map (fun w => w.trits) = .ok (List.replicate 27 .neg) ∧
  wordFromInt 3812798742494 = .error .outOfRange

/-- R94, R95: the Tryte conversions undo each other within ±9841, and `tryte_from_int` fails with
OutOfRange outside; with the corner cases of R94. -/
def Obligations.TryteConversionIsBijective : Prop :=
  (∀ n : Int, if |n| ≤ 9841 then ∃ t, tryteFromInt n = .ok t ∧ intFromTryte t = n
    else tryteFromInt n = .error .outOfRange) ∧
  (∀ t : Tryte, tryteFromInt (intFromTryte t) = .ok t ∧ |intFromTryte t| ≤ 9841) ∧
  (tryteFromInt 9841).map (fun t => t.trits) = .ok (List.replicate 9 .pos) ∧
  (tryteFromInt (-9841)).map (fun t => t.trits) = .ok (List.replicate 9 .neg) ∧
  tryteFromInt 9842 = .error .outOfRange ∧ tryteFromInt (-9842) = .error .outOfRange

/-- R98: widening. A sequence of width at most 27 and the Word of its value agree: the same trits, and 0
above them; this is how the 12-trit immediate of a Word becomes a Word. R98 is the spec's own inference
from R93. -/
def Obligations.WideningAppendsZeroTrits : Prop :=
  (∀ ts : List Trit, ts.length ≤ 27 →
    wordFromInt (tritsInt ts) = .ok (ext27 ts) ∧
    (ext27 ts).trits = ts ++ List.replicate (27 - ts.length) .zero) ∧
  (∀ w : Word, immWord (immField w) = ext27 (slice w 0 12))

/-- R99: on sequences of one width, equality and order are those of the values, and the order is decided
by the most significant position at which two sequences differ. The most significant difference is the
spec's own inference (R99, '[derived]'). -/
def Obligations.OrderIsThatOfMostSignificantDifference : Prop :=
  ∀ (k : Nat) (a b : Trits k),
    (a = b ↔ tritsInt a.trits = tritsInt b.trits) ∧
    (tritsLt a b = true ↔ tritsInt a.trits < tritsInt b.trits) ∧
    (tritsLt a b = true ↔ ∃ i, i < k ∧
      tritValue (a.trits.getD i .zero) < tritValue (b.trits.getD i .zero) ∧
      ∀ j, i < j → j < k → a.trits.getD j .zero = b.trits.getD j .zero)

/-- R24: a Word's value is that of its three Trytes, Tryte 0 least significant. The place of the Trytes
is the spec's own decision D16 (assumption log 17). -/
def Obligations.WordIsThreeTrytes : Prop :=
  ∀ w : Word,
    intFromWord w = intFromTryte (tryteOfWord w 0) + 3 ^ 9 * intFromTryte (tryteOfWord w 1) +
      3 ^ 18 * intFromTryte (tryteOfWord w 2) ∧
    w.trits = (tryteOfWord w 0).trits ++ (tryteOfWord w 1).trits ++ (tryteOfWord w 2).trits

/-! ## The adder and negation blocks (41_adder_negation.md) -/

/-- R111: the full-adder cell. `digit + 3*carry = raw_sum`, no other pair of trits satisfies it,
`digit = bal_mod(raw_sum, 3)`, and the cell is symmetric in its three inputs. -/
def Obligations.FullAdderCellSplitsRawSum : Prop :=
  ∀ a b c : Trit,
    (∀ d k : Trit, fullAdd a b c = (d, k) ↔
      tritValue d + 3 * tritValue k = tritValue a + tritValue b + tritValue c) ∧
    tritValue (fullAdd a b c).1 = balMod (tritValue a + tritValue b + tritValue c) 3 ∧
    tritValue (fullAdd a b c).2 =
      (tritValue a + tritValue b + tritValue c - tritValue (fullAdd a b c).1) / 3 ∧
    fullAdd a b c = fullAdd b a c ∧ fullAdd a b c = fullAdd a c b

/-- R112: the cell's complete truth table, the rows in the rule's order (a, b and c each running through
`-`, `0`, `+`, c fastest). The table is the spec's own inference from R111. -/
def Obligations.FullAdderTruthTable : Prop :=
  ([Trit.neg, .zero, .pos].flatMap fun a => [Trit.neg, .zero, .pos].flatMap fun b =>
    [Trit.neg, .zero, .pos].map fun c => fullAdd a b c) =
  [(.zero, .neg), (.pos, .neg), (.neg, .zero), (.pos, .neg), (.neg, .zero), (.zero, .zero),
   (.neg, .zero), (.zero, .zero), (.pos, .zero),
   (.pos, .neg), (.neg, .zero), (.zero, .zero), (.neg, .zero), (.zero, .zero), (.pos, .zero),
   (.zero, .zero), (.pos, .zero), (.neg, .pos),
   (.neg, .zero), (.zero, .zero), (.pos, .zero), (.zero, .zero), (.pos, .zero), (.neg, .pos),
   (.pos, .zero), (.neg, .pos), (.zero, .pos)]

/-- R113: `add` is a chain of 27 cells from position 0 upward, carry 0 in, each cell's carry going into
the next; the carry `c 27` out of the last is the one that is dropped; the rule's example is 5 + 8 = 13. -/
def Obligations.AddIsChainOfTwentySevenCells : Prop :=
  (∀ a b : Word, ∃ c : Nat → Trit, c 0 = .zero ∧ c 27 = droppedCarry a b ∧
    ∀ i, i < 27 →
      fullAdd (a.trits.getD i .zero) (b.trits.getD i .zero) (c i) =
        ((addWord a b).trits.getD i .zero, c (i + 1))) ∧
  addWord (wordOfInt 5) (wordOfInt 8) = wordOfInt 13

/-- R114: addition wraps silently modulo 3^27 to the balanced representative, by the three cases of the
rule; with its corner cases. Silent wrap is the spec's own decision D7 (assumption log 10), and the
value law its inference from R111 and R113. -/
def Obligations.AddWrapsModuloThreePow27 : Prop :=
  (∀ a b : Word,
    intFromWord (addWord a b) = wrap27 (intFromWord a + intFromWord b) ∧
    intFromWord (addWord a b) =
      (if intFromWord a + intFromWord b > 3812798742493 then
        intFromWord a + intFromWord b - 7625597484987
      else if intFromWord a + intFromWord b < -3812798742493 then
        intFromWord a + intFromWord b + 7625597484987
      else intFromWord a + intFromWord b)) ∧
  (∀ a b : Word, ∀ v : Int, |v| ≤ 3812798742493 →
    (7625597484987 : Int) ∣ intFromWord a + intFromWord b - v → intFromWord (addWord a b) = v) ∧
  intFromWord (addWord (wordOfInt 3812798742493) (wordOfInt 1)) = -3812798742493 ∧
  intFromWord (addWord (wordOfInt 3812798742493) (wordOfInt 3812798742493)) = -1 ∧
  intFromWord (addWord (wordOfInt (-3812798742493)) (wordOfInt (-3812798742493))) = 1 ∧
  intFromWord (addWord (wordOfInt (-3812798742493)) (wordOfInt (-1))) = 3812798742493 ∧
  (∀ a : Word, addWord a Word.zero = a)

/-- R117: `add` is commutative and associative, the zero Word is its identity, `negate(a)` the inverse
of `a`, and a sum is congruent to the sum of the values modulo 3^27. The congruence is the spec's own
inference from R114. -/
def Obligations.WordsUnderAddFormCommutativeGroup : Prop :=
  ∀ a b c : Word,
    addWord a b = addWord b a ∧
    addWord (addWord a b) c = addWord a (addWord b c) ∧
    addWord a Word.zero = a ∧
    addWord a (negateWord a) = Word.zero ∧
    (7625597484987 : Int) ∣ intFromWord a + intFromWord b - intFromWord (addWord a b)

/-- R115: negation flips each trit independently of the others, negates the value exactly for every
Word, is its own inverse, and adds with its operand to zero; `negate(zero)` is zero, and 42 goes to
-42. -/
def Obligations.NegateFlipsEveryTrit : Prop :=
  (∀ a : Word,
    (∀ i, i < 27 → tritValue ((negateWord a).trits.getD i .zero) =
      -tritValue (a.trits.getD i .zero)) ∧
    intFromWord (negateWord a) = -intFromWord a ∧
    negateWord (negateWord a) = a ∧ addWord a (negateWord a) = Word.zero) ∧
  negateWord Word.zero = Word.zero ∧
  negateWord (wordOfInt 3812798742493) = wordOfInt (-3812798742493) ∧
  negateWord (wordOfInt (-3812798742493)) = wordOfInt 3812798742493 ∧
  negateWord (wordOfInt 42) = wordOfInt (-42)

/-- R116: `subtract(a, b) = add(a, negate(b))`, of value `wrap27(int(a) - int(b))`; with the rule's
corner cases. The value law is the spec's own inference from R114 and R115. -/
def Obligations.SubtractIsAddOfNegation : Prop :=
  (∀ a b : Word,
    subtractWord a b = addWord a (negateWord b) ∧
    intFromWord (subtractWord a b) = wrap27 (intFromWord a - intFromWord b) ∧
    subtractWord a a = Word.zero ∧
    subtractWord Word.zero b = negateWord b) ∧
  intFromWord (subtractWord (wordOfInt (-3812798742493)) (wordOfInt 1)) = 3812798742493 ∧
  intFromWord (subtractWord (wordOfInt 3812798742493) (wordOfInt (-3812798742493))) = -1 ∧
  intFromWord (subtractWord (wordOfInt (-3812798742493)) (wordOfInt 3812798742493)) = 1 ∧
  intFromWord (subtractWord Word.zero (wordOfInt 3812798742493)) = -3812798742493

/-- R118 (its arithmetic; that nothing reads the carry is a matter of the state's fields): the dropped
carry is non-zero exactly when the true sum is out of range, +1 above and -1 below, and it makes up the
difference. That the carry makes up the difference is the spec's own inference in R114. -/
def Obligations.DroppedCarryTellsOverflow : Prop :=
  ∀ a b : Word,
    intFromWord a + intFromWord b =
      intFromWord (addWord a b) + 7625597484987 * tritValue (droppedCarry a b) ∧
    (droppedCarry a b = .pos ↔ intFromWord a + intFromWord b > 3812798742493) ∧
    (droppedCarry a b = .neg ↔ intFromWord a + intFromWord b < -3812798742493)

/-! ## The encoding and the codec (30_encoding.md, 42_codec.md) -/

/-- R62: a Word's value is the weighted sum of its five fields; every choice of field values in range is
the fields of a Word; a Word is determined by its fields; the extreme choice gives `WORD_MAX`. R62 is
the spec's own inference from R61 and R7. -/
def Obligations.InstructionWordValueIsWeightedSum : Prop :=
  (∀ w : Word, intFromWord w = immField w + src2Field w * 3 ^ 12 + src1Field w * 3 ^ 15 +
    destField w * 3 ^ 18 + opcodeField w * 3 ^ 21) ∧
  (∀ op d a b n : Int, |op| ≤ 364 → |d| ≤ 13 → |a| ≤ 13 → |b| ≤ 13 → |n| ≤ 265720 →
    ∃ w : Word, opcodeField w = op ∧ destField w = d ∧ src1Field w = a ∧ src2Field w = b ∧
      immField w = n ∧ intFromWord w = n + b * 3 ^ 12 + a * 3 ^ 15 + d * 3 ^ 18 + op * 3 ^ 21) ∧
  (∀ w v : Word, opcodeField w = opcodeField v → destField w = destField v →
    src1Field w = src1Field v → src2Field w = src2Field v → immField w = immField v → w = v) ∧
  (265720 + 13 * (3 ^ 12 + 3 ^ 15 + 3 ^ 18) + 364 * 3 ^ 21 : Int) = 3812798742493

/-- R63: each field read from the trits is `field(n, lo, k)` of the Word's value `n`, and depends on its
own trits only. The second form is the spec's own inference from R62. -/
def Obligations.FieldsAreReadFromTheValue : Prop :=
  (∀ w : Word,
    immField w = intField (intFromWord w) 0 12 ∧ src2Field w = intField (intFromWord w) 12 3 ∧
    src1Field w = intField (intFromWord w) 15 3 ∧ destField w = intField (intFromWord w) 18 3 ∧
    opcodeField w = intField (intFromWord w) 21 6) ∧
  (∀ (w v : Word) (lo k : Nat),
    (∀ i, lo ≤ i → i < lo + k → w.trits.getD i .zero = v.trits.getD i .zero) → lo + k ≤ 27 →
    fieldOf w lo k = fieldOf v lo k)

/-- R64 (its mapping): every register field value names a register, by adding 13, and each register is
named by exactly one; the field of three 0 trits names R13, and `---` names R0. -/
def Obligations.RegisterFieldNamesEveryRegister : Prop :=
  (∀ w : Word, regInRange (regOfRaw (destField w)) ∧ regInRange (regOfRaw (src1Field w)) ∧
    regInRange (regOfRaw (src2Field w))) ∧
  (∀ r : Int, regOfRaw (rawOfReg r) = r ∧ rawOfReg (regOfRaw r) = r ∧
    (regInRange r → tritsInt (tritsOfInt 3 (rawOfReg r)) = r - 13)) ∧
  regOfRaw (tritsInt [.zero, .zero, .zero]) = 13 ∧ regOfRaw (tritsInt [.neg, .neg, .neg]) = 0

/-- R131: `decode` is total. On a Word whose opcode field is the value of a mnemonic it answers the
in-range Instruction with that mnemonic and the Word's fields; on any other it fails with DecodeError;
with the rule's two examples. -/
def Obligations.DecodeIsTotalAndNeverWrong : Prop :=
  (∀ m : OpMap, m.wf → ∀ w : Word,
    (∀ k : Mnemonic, opcodeField w = m.raw k →
      ∃ i, decode m w = .ok i ∧ i.WellFormed ∧ i.mnemonic = k ∧ i.dest = destField w + 13 ∧
        i.src1 = src1Field w + 13 ∧ i.src2 = src2Field w + 13 ∧ i.imm = immField w) ∧
    ((∀ k : Mnemonic, opcodeField w ≠ m.raw k) → decode m w = .error .decodeError)) ∧
  decode OpMap.default (wordOfInt 16853057001) = .ok (.addi 3 0 0 9) ∧
  decode OpMap.default Word.zero = .error .decodeError

/-- R133: `encode` fails with FieldOverflow exactly when a component is out of range, used or not; else
it answers the Word whose parts are the fields' trits, which is also the Word of the weighted sum;
with the rule's example and corner cases. -/
def Obligations.EncodePacksOrOverflows : Prop :=
  (∀ (m : OpMap) (i : Instr), ¬ i.WellFormed → encode m i = .error .fieldOverflow) ∧
  (∀ (m : OpMap) (i : Instr), m.wf → i.WellFormed →
    ∃ w, encode m i = .ok w ∧
      slice w 0 12 = tritsOfInt 12 i.imm ∧ slice w 12 3 = tritsOfInt 3 (i.src2 - 13) ∧
      slice w 15 3 = tritsOfInt 3 (i.src1 - 13) ∧ slice w 18 3 = tritsOfInt 3 (i.dest - 13) ∧
      slice w 21 6 = tritsOfInt 6 (m.raw i.mnemonic) ∧
      wordFromInt (i.imm + (i.src2 - 13) * 3 ^ 12 + (i.src1 - 13) * 3 ^ 15 +
        (i.dest - 13) * 3 ^ 18 + m.raw i.mnemonic * 3 ^ 21) = .ok w) ∧
  encode OpMap.default (.addi 3 0 0 9) = wordFromInt 16853057001 ∧
  (∀ m : OpMap, encode m (.addi 1 0 0 265721) = .error .fieldOverflow ∧
    encode m (.addi 1 0 0 (-265721)) = .error .fieldOverflow ∧
    encode m (.add 27 0 0 0) = .error .fieldOverflow ∧
    encode m (.add 0 (-1) 0 0) = .error .fieldOverflow ∧
    encode m (.halt 0 0 27 0) = .error .fieldOverflow)

/-- R135: the round-trip laws. For every map within R6 and every Instruction in range, decoding its
encoding gives it back, all five components; encoding what a Word decodes to gives the Word back; and
encoding is injective on Instructions in range. The converse and the injectivity are the spec's own
inference (R135, '[derived]'). -/
def Obligations.DecodeEncodeRoundTrip : Prop :=
  ∀ m : OpMap, m.wf →
    (∀ i : Instr, i.WellFormed → ∃ w, encode m i = .ok w ∧ decode m w = .ok i) ∧
    (∀ (w : Word) (i : Instr), decode m w = .ok i → encode m i = .ok w) ∧
    (∀ i j : Instr, i.WellFormed → j.WellFormed → encode m i = encode m j → i = j)

/-- R136: `encode_program` encodes every element in order, or fails with FieldOverflow and the least
index, counted from 0, whose element fails. Counting from 0 is the spec's own decision D20 (assumption
log 17). -/
def Obligations.EncodeProgramReportsFirstFailure : Prop :=
  ∀ m : OpMap,
    (∀ is : List Instr, (∀ i ∈ is, i.WellFormed) →
      ∃ ws, encodeProgram m is = .ok ws ∧ ws.length = is.length ∧
        ∀ (k : Nat) (i : Instr) (w : Word), is[k]? = some i → ws[k]? = some w →
          encode m i = .ok w) ∧
    (∀ (is : List Instr) (k : Nat) (i : Instr), is[k]? = some i → ¬ i.WellFormed →
      (∀ (j : Nat) (i' : Instr), j < k → is[j]? = some i' → i'.WellFormed) →
      encodeProgram m is = .error (.fieldOverflow, k)) ∧
    encodeProgram m [] = .ok []

/-- R76, R77, R82: under the default map the Words that decode to a mnemonic are exactly those of value
`opcode_raw * 3^21 ± (3^21 - 1)/2`, and the Words that decode at all exactly those from 5230176602 to
120294061834. The default map is the spec's own decision D1 (assumption log 4). -/
def Obligations.DefaultMapDefinedWordsAreOneInterval : Prop :=
  (∀ (w : Word) (k : Mnemonic),
    (∃ i, decode OpMap.default w = .ok i ∧ i.mnemonic = k) ↔
      2 * |intFromWord w - OpMap.default.raw k * 3 ^ 21| ≤ 3 ^ 21 - 1) ∧
  (∀ w : Word, (∃ i, decode OpMap.default w = .ok i) ↔
    5230176602 ≤ intFromWord w ∧ intFromWord w ≤ 120294061834)

/-- Sanity, from the vectors of 95_test_vectors.md section 2.4: the decoder reads one Word of every
instruction as the tuple written beside it. The default map is the spec's own decision D1 (assumption
log 4). -/
def Obligations.VectorWordsDecode : Prop :=
  [6408115578, 16092564920, 27716242473, 38620348912, 47861045024, 57548151572, 68093003887,
    78452914763, 88913267946, 99387970076, 120294061834].map
      (fun n => (decode OpMap.default (wordOfInt n)).toOption) =
  [some (.add 3 1 2 0), some (.addi 1 1 0 (-1)), some (.sub 4 1 2 0), some (.subi 5 5 0 1),
    some (.ldw 2 1 0 5), some (.stw 0 1 3 5), some (.jmp 0 7 0 (-2)), some (.call 0 0 0 20),
    some (.ret 0 0 0 0), some (.brz 0 1 0 20), some (.halt 26 26 26 265720)]

/-- R67 (execution): a component that the mnemonic does not use never matters. An Instruction runs as
the one with every unused component replaced by that of the listings (R81). It is the spec's own
decision D15 (assumption log 13). -/
def Obligations.ExecutionIgnoresUnusedFields : Prop :=
  ∀ (i : Instr) (s : State), exec i s = exec (listed i) s

/-! ## Registers and memory (10_state.md, 20_memory.md) -/

/-- R26, R27: a register from R1 to R26 reads what was last written to it, and a write to one leaves the
others alone; R0 reads the zero Word always, and a write to it changes nothing at all. That writes to R0
are discarded is the spec's own decision D3 (assumption log 7). -/
def Obligations.RegisterFileReadsBackAndHardZero : Prop :=
  (∀ (s : State) (i : Int) (v : Word), 1 ≤ i → i ≤ 26 →
    (s.setReg i v).reg i = v ∧ (∀ r, regInRange r → r ≠ i → (s.setReg i v).reg r = s.reg r) ∧
    s.keepsMem (s.setReg i v) ∧ s.keepsControl (s.setReg i v) ∧ (s.setReg i v).pc = s.pc) ∧
  (∀ (s : State) (v : Word), s.reg 0 = Word.zero ∧ s.setReg 0 v = s)

/-- R44, R45: a memory write replaces the Word at its address, which a read then gives, and changes no
other address and nothing else. -/
def Obligations.MemoryReadsBackWrites : Prop :=
  ∀ (s : State) (a : Nat) (v : Word), s.validAddr a = true →
    (s.memWrite a v).memRead a = v ∧
    (∀ x : Nat, x ≠ a → (s.memWrite a v).memRead x = s.memRead x) ∧
    s.keepsRegs (s.memWrite a v) ∧ s.keepsControl (s.memWrite a v) ∧ (s.memWrite a v).pc = s.pc

/-- R42: an address is valid exactly when it is from 0 to `MEM_SIZE - 1`. That a negative address is
invalid is the spec's own inference from R40. -/
def Obligations.ValidAddressesAreThoseBelowMemSize : Prop :=
  ∀ (s : State) (a : Int), s.validAddr a = true ↔ 0 ≤ a ∧ a < (s.cfg.memSize : Int)

/-! ## The arithmetic instructions (44_arith_instructions.md) -/

/-- R170: ADD completes with `x[dest] <- add(x[src1], x[src2])`, of value
`wrap27(int(x[src1]) + int(x[src2]))`, and `pc + 1`; a write to R0 is discarded, imm is ignored, and
nothing else changes; opcode raw 1, and the rule's example is the Word 6408115578. -/
def Obligations.AddResultAndFrame : Prop :=
  (∀ (d a b n : Int) (s : State), (Instr.add d a b n).WellFormed →
    ∃ t, exec (.add d a b n) s = .next t ∧
      (d ≠ 0 → t.reg d = addWord (s.reg a) (s.reg b) ∧
        intFromWord (t.reg d) = wrap27 (intFromWord (s.reg a) + intFromWord (s.reg b))) ∧
      t.reg 0 = Word.zero ∧ s.keepsRegsBut t d ∧ t.pc = s.pc + 1 ∧ s.keepsMem t ∧
      s.keepsControl t) ∧
  OpMap.default.raw .add = 1 ∧ encode OpMap.default (.add 3 1 2 0) = wordFromInt 6408115578

/-- R171: ADDI completes with `x[dest] <- add(x[src1], word_from_int(imm))`, of value
`wrap27(int(x[src1]) + imm)`, and `pc + 1`; a write to R0 is discarded, src2 is ignored, and nothing
else changes; opcode raw 2, and the rule's examples are the Words 16853057001 and 16896103719. -/
def Obligations.AddiResultAndFrame : Prop :=
  (∀ (d a b n : Int) (s : State), (Instr.addi d a b n).WellFormed →
    ∃ t, exec (.addi d a b n) s = .next t ∧
      (d ≠ 0 → (∃ w, wordFromInt n = .ok w ∧ t.reg d = addWord (s.reg a) w) ∧
        intFromWord (t.reg d) = wrap27 (intFromWord (s.reg a) + n)) ∧
      t.reg 0 = Word.zero ∧ s.keepsRegsBut t d ∧ t.pc = s.pc + 1 ∧ s.keepsMem t ∧
      s.keepsControl t) ∧
  OpMap.default.raw .addi = 2 ∧ encode OpMap.default (.addi 3 0 0 9) = wordFromInt 16853057001 ∧
  encode OpMap.default (.addi 3 3 0 6) = wordFromInt 16896103719

/-- R172: SUB completes with `x[dest] <- subtract(x[src1], x[src2])`, of value
`wrap27(int(x[src1]) - int(x[src2]))`, and `pc + 1`; a write to R0 is discarded, imm is ignored, and
nothing else changes; equal sources give zero, and `SUB Rd,R0,Rs` negates exactly; opcode raw 3, and
the rule's example is the Word 27716242473. -/
def Obligations.SubResultAndFrame : Prop :=
  (∀ (d a b n : Int) (s : State), (Instr.sub d a b n).WellFormed →
    ∃ t, exec (.sub d a b n) s = .next t ∧
      (d ≠ 0 → t.reg d = subtractWord (s.reg a) (s.reg b) ∧
        intFromWord (t.reg d) = wrap27 (intFromWord (s.reg a) - intFromWord (s.reg b)) ∧
        (a = b → t.reg d = Word.zero) ∧
        (a = 0 → intFromWord (t.reg d) = -intFromWord (s.reg b))) ∧
      t.reg 0 = Word.zero ∧ s.keepsRegsBut t d ∧ t.pc = s.pc + 1 ∧ s.keepsMem t ∧
      s.keepsControl t) ∧
  OpMap.default.raw .sub = 3 ∧ encode OpMap.default (.sub 4 1 2 0) = wordFromInt 27716242473

/-- R173: SUBI completes with `x[dest] <- subtract(x[src1], word_from_int(imm))`, of value
`wrap27(int(x[src1]) - imm)`, and `pc + 1`; a write to R0 is discarded, src2 is ignored, and nothing
else changes; `SUBI Rd,Rs,n` equals `ADDI Rd,Rs,-n`; opcode raw 4, and the rule's example is the Word
38620348912. The equality with ADDI is the spec's own inference from R115 and R116. -/
def Obligations.SubiResultAndFrame : Prop :=
  (∀ (d a b n : Int) (s : State), (Instr.subi d a b n).WellFormed →
    ∃ t, exec (.subi d a b n) s = .next t ∧ exec (.addi d a b (-n)) s = .next t ∧
      (d ≠ 0 → (∃ w, wordFromInt n = .ok w ∧ t.reg d = subtractWord (s.reg a) w) ∧
        intFromWord (t.reg d) = wrap27 (intFromWord (s.reg a) - n)) ∧
      t.reg 0 = Word.zero ∧ s.keepsRegsBut t d ∧ t.pc = s.pc + 1 ∧ s.keepsMem t ∧
      s.keepsControl t) ∧
  OpMap.default.raw .subi = 4 ∧ encode OpMap.default (.subi 5 5 0 1) = wordFromInt 38620348912

/-! ## The memory instructions (45_memory_instructions.md) -/

/-- R180 (the address): `ea(src1, imm) = wrap27(int(x[src1]) + imm)`, within the range of a Word; with
src1 = R0 it is the immediate, and with imm = 0 the register's value. That the sum wraps is the spec's
own decision D7 (assumption log 10). -/
def Obligations.EffectiveAddressWraps : Prop :=
  ∀ (s : State) (a n : Int), regInRange a → immInRange n →
    s.ea a n = wrap27 (intFromWord (s.reg a) + n) ∧ |s.ea a n| ≤ 3812798742493 ∧
    (a = 0 → s.ea a n = n) ∧ (n = 0 → s.ea a n = intFromWord (s.reg a))

/-- R181: LDW from a valid address completes with the Word of that address in dest and `pc + 1`, and
changes nothing else (with dest R0 nothing but `pc`); from any other address, whatever dest is, it takes
a MemoryFault; src2 is ignored; opcode raw 5, and the rule's example is the Word 47861045024. The check
with dest R0 is the spec's own decision D23 (assumption log 13). That a fault is a next state with its
record in the latch is the model's (assumption log 5), and that it leaves the rest alone is the spec's
own decision D12 (assumption log 12). -/
def Obligations.LdwLoadsOrFaults : Prop :=
  (∀ (d a b n : Int) (s : State), (Instr.ldw d a b n).WellFormed →
    0 ≤ wrap27 (intFromWord (s.reg a) + n) →
    wrap27 (intFromWord (s.reg a) + n) < (s.cfg.memSize : Int) →
    ∃ t, exec (.ldw d a b n) s = .next t ∧
      (d ≠ 0 → t.reg d = s.memRead (wrap27 (intFromWord (s.reg a) + n)).toNat) ∧
      t.reg 0 = Word.zero ∧ s.keepsRegsBut t d ∧ t.pc = s.pc + 1 ∧ s.keepsMem t ∧
      s.keepsControl t) ∧
  (∀ (d a b n : Int) (s : State), (Instr.ldw d a b n).WellFormed →
    (wrap27 (intFromWord (s.reg a) + n) < 0 ∨
      (s.cfg.memSize : Int) ≤ wrap27 (intFromWord (s.reg a) + n)) →
    ∃ t, exec (.ldw d a b n) s = .next t ∧ s.faultsTo t .memoryFault) ∧
  OpMap.default.raw .ldw = 5 ∧ encode OpMap.default (.ldw 2 1 0 5) = wordFromInt 47861045024

/-- R182: STW to a valid address completes with the Word of src2 at that address and `pc + 1`; every
other address and everything else is unchanged; to any other address it takes a MemoryFault and stores
nothing; dest is ignored; opcode raw 6, and the rule's example is the Word 57548151572. The address
stored to is `s.ea a n`, as the meaning computes it. That a fault is a next state with its record in the
latch is the model's (assumption log 5), and that it leaves the rest alone is the spec's own decision
D12 (assumption log 12). -/
def Obligations.StwStoresOrFaults : Prop :=
  (∀ (d a b n : Int) (s : State), (Instr.stw d a b n).WellFormed →
    s.ea a n = wrap27 (intFromWord (s.reg a) + n) ∧
    (0 ≤ s.ea a n → s.ea a n < (s.cfg.memSize : Int) →
      ∃ t, exec (.stw d a b n) s = .next t ∧
        t.memRead (s.ea a n).toNat = s.reg b ∧
        (∀ x : Nat, (x : Int) ≠ s.ea a n → t.memRead x = s.memRead x) ∧
        s.keepsRegs t ∧ t.pc = s.pc + 1 ∧ s.keepsControl t) ∧
    (s.ea a n < 0 ∨ (s.cfg.memSize : Int) ≤ s.ea a n →
      ∃ t, exec (.stw d a b n) s = .next t ∧ s.faultsTo t .memoryFault)) ∧
  OpMap.default.raw .stw = 6 ∧ encode OpMap.default (.stw 0 1 3 5) = wordFromInt 57548151572

/-- R52: a store is seen by every later fetch of its address: in any state with the memory and the
parameters that a completed STW leaves, and `pc` at the address stored to, the fetch gives the Word
stored. R52 is the spec's own inference from R40 and R50. -/
def Obligations.StoreIsSeenByLaterFetch : Prop :=
  ∀ (d a b n : Int) (s : State), (Instr.stw d a b n).WellFormed →
    0 ≤ s.ea a n → s.ea a n < (s.cfg.memSize : Int) →
    ∃ t, exec (.stw d a b n) s = .next t ∧
      ∀ u : State, u.mem = t.mem → u.cfg = t.cfg → u.pc = s.ea a n → u.fetch = some (s.reg b)

/-! ## The control instructions (46_control_instructions.md) -/

/-- R191: JMP completes with `pc` at `int_from_word(add(x[src1], word_from_int(imm)))`, of value
`wrap27(int(x[src1]) + imm)`, unchecked, and changes nothing else; a target equal to `pc` changes
nothing at all (an endless loop), and an invalid one faults at the next fetch; opcode raw 7, and the
rule's examples are the Words 67992561560 and 68093003887. How the target is formed and stored unchecked
are the spec's own decisions D8 and D9 (assumption log 11). That a fault is a next state with its record
in the latch is the model's (assumption log 5), and that it leaves the rest alone is the spec's own
decision D12 (assumption log 12). -/
def Obligations.JmpSetsTarget : Prop :=
  (∀ (d a b n : Int) (s : State), (Instr.jmp d a b n).WellFormed →
    ∃ t, exec (.jmp d a b n) s = .next t ∧
      (∃ w, wordFromInt n = .ok w ∧ t.pc = intFromWord (addWord (s.reg a) w)) ∧
      t.pc = wrap27 (intFromWord (s.reg a) + n) ∧
      (a = 0 → t.pc = n) ∧ s.keepsRegs t ∧ s.keepsMem t ∧ s.keepsControl t ∧
      (t.pc = s.pc → t = s) ∧ t.nextFetchFaultsIfInvalid) ∧
  OpMap.default.raw .jmp = 7 ∧ encode OpMap.default (.jmp 0 0 0 20) = wordFromInt 67992561560 ∧
  encode OpMap.default (.jmp 0 7 0 (-2)) = wordFromInt 68093003887

/-- R192: CALL below capacity completes with `pc + 1` pushed and `pc` at `wrap27(int(x[src1]) + imm)`,
unchecked, and changes nothing else (an invalid target faults at the next fetch); at capacity it takes a
StackFault and pushes nothing; opcode raw 8, and the rule's example is the Word 78452914763. How the
target is formed and stored unchecked are the spec's own decisions D8 and D9 (assumption log 11). That a
fault is a next state with its record in the latch is the model's (assumption log 5), and that it leaves
the rest alone is the spec's own decision D12 (assumption log 12). -/
def Obligations.CallPushesOrFaults : Prop :=
  (∀ (d a b n : Int) (s : State), (Instr.call d a b n).WellFormed →
    (s.depth < s.cfg.stackDepth →
      ∃ t, exec (.call d a b n) s = .next t ∧ t.stack = (s.pc + 1) :: s.stack ∧
        t.pc = wrap27 (intFromWord (s.reg a) + n) ∧ s.keepsRegs t ∧ s.keepsMem t ∧
        t.halted = s.halted ∧ t.fault = s.fault ∧ t.cfg = s.cfg ∧ t.nextFetchFaultsIfInvalid) ∧
    (s.cfg.stackDepth ≤ s.depth →
      ∃ t, exec (.call d a b n) s = .next t ∧ s.faultsTo t .stackFault)) ∧
  OpMap.default.raw .call = 8 ∧ encode OpMap.default (.call 0 0 0 20) = wordFromInt 78452914763

/-- R193: RET on a call stack that is not empty completes with its newest entry in `pc` and taken off
the stack, unchecked (an invalid one faults at the next fetch), and changes nothing else; on an empty
one it takes a StackFault; opcode raw 9, and the rule's example is the Word 88913267946. That the popped
target is stored unchecked is the spec's own decision D9 (assumption log 11). That a fault is a next
state with its record in the latch is the model's (assumption log 5), and that it leaves the rest alone
is the spec's own decision D12 (assumption log 12). -/
def Obligations.RetPopsOrFaults : Prop :=
  (∀ (d a b n : Int) (s : State), (Instr.ret d a b n).WellFormed →
    (∀ (v : Int) (vs : List Int), s.stack = v :: vs →
      ∃ t, exec (.ret d a b n) s = .next t ∧ t.pc = v ∧ t.stack = vs ∧ s.keepsRegs t ∧
        s.keepsMem t ∧ t.halted = s.halted ∧ t.fault = s.fault ∧ t.cfg = s.cfg ∧
        t.nextFetchFaultsIfInvalid) ∧
    (s.stack = [] → ∃ t, exec (.ret d a b n) s = .next t ∧ s.faultsTo t .stackFault)) ∧
  OpMap.default.raw .ret = 9 ∧ encode OpMap.default (.ret 0 0 0 0) = wordFromInt 88913267946

/-- R194: BRZ completes with `pc` at the immediate, unchecked, if the tested register is the zero Word
(all 27 trits 0), and at `pc + 1` if not, and changes nothing else; R0 always branches, and an invalid
target faults at the next fetch; opcode raw 10, and the rule's example is the Word 99387970076. The
absolute target, stored unchecked, is the spec's own decisions D8 and D9 (assumption log 11). That a
fault is a next state with its record in the latch is the model's (assumption log 5), and that it leaves
the rest alone is the spec's own decision D12 (assumption log 12). -/
def Obligations.BrzBranchesOnZero : Prop :=
  (∀ (d a b n : Int) (s : State), (Instr.brz d a b n).WellFormed →
    ∃ t, exec (.brz d a b n) s = .next t ∧
      (intFromWord (s.reg a) = 0 ↔ ∀ x ∈ (s.reg a).trits, x = .zero) ∧
      (intFromWord (s.reg a) = 0 → t.pc = n) ∧ (intFromWord (s.reg a) ≠ 0 → t.pc = s.pc + 1) ∧
      (a = 0 → t.pc = n) ∧ s.keepsRegs t ∧ s.keepsMem t ∧ s.keepsControl t ∧
      t.nextFetchFaultsIfInvalid) ∧
  OpMap.default.raw .brz = 10 ∧ encode OpMap.default (.brz 0 1 0 20) = wordFromInt 99387970076

/-- R195: HALT completes with `halted` set and nothing else changed: `pc` stays at the HALT, and no
fault record is reported; every further step changes nothing; opcode raw 11, and the rule's example is
the Word 109833974352. What HALT leaves, and that further steps change nothing, are the spec's own
decisions D12 and D13 (assumption log 12). The latch that it leaves alone is the model's (assumption log
5). -/
def Obligations.HaltSetsHaltedOnly : Prop :=
  (∀ (d a b n : Int) (s : State), (Instr.halt d a b n).WellFormed →
    ∃ t, exec (.halt d a b n) s = .next t ∧ t.halted = true ∧ t.pc = s.pc ∧ t.stack = s.stack ∧
      t.fault = s.fault ∧ t.cfg = s.cfg ∧ s.keepsRegs t ∧ s.keepsMem t ∧ step t = .next t) ∧
  OpMap.default.raw .halt = 11 ∧ encode OpMap.default (.halt 0 0 0 0) = wordFromInt 109833974352

/-- R192 and R193 together: below capacity, a RET in any state whose call stack is what a CALL left
resumes at the instruction after the CALL, with the call stack as before it. That the call stack is a
store of its own is the spec's own decision D5 (assumption log 9). -/
def Obligations.ReturnResumesAfterCall : Prop :=
  ∀ (d a b n d' a' b' n' : Int) (s : State), s.depth < s.cfg.stackDepth →
    ∃ t, exec (.call d a b n) s = .next t ∧
      ∀ u : State, u.stack = t.stack →
        ∃ v, exec (.ret d' a' b' n') u = .next v ∧ v.pc = s.pc + 1 ∧ v.stack = s.stack

/-! ## The engine (43_fde_engine.md) and faults (60_exceptions.md) -/

/-- R151, R153, R154: on a RUNNING CPU, when the Word at a valid `pc` decodes to an instruction, that
instruction is in range and the step is its meaning, with nothing added. -/
def Obligations.StepRunsDecodedInstruction : Prop :=
  ∀ (s : State) (i : Instr), s.halted = false → 0 ≤ s.pc → s.pc < (s.cfg.memSize : Int) →
    decode s.cfg.opmap (s.memRead s.pc.toNat) = .ok i →
    i.WellFormed ∧ step s = exec i s

/-- R152: the fetch gives the Word at `pc` and, when `pc` is no valid address, a RUNNING CPU's step
takes a MemoryFault with `pc` and no Word. That a fault is a next state with its record in the latch is
the model's (assumption log 5), and that it leaves the rest alone is the spec's own decision D12
(assumption log 12). -/
def Obligations.FetchReadsMemoryOrFaults : Prop :=
  (∀ s : State, 0 ≤ s.pc → s.pc < (s.cfg.memSize : Int) →
    s.fetch = some (s.memRead s.pc.toNat)) ∧
  (∀ s : State, s.halted = false → (s.pc < 0 ∨ (s.cfg.memSize : Int) ≤ s.pc) →
    ∃ t, step s = .next t ∧ s.faultsTo t .memoryFault ∧
      t.fault = some { kind := .memoryFault, pc := s.pc, word := none })

/-- R153, R212: a RUNNING CPU that fetches a Word whose opcode field names no mnemonic takes a
DecodeError with `pc` and that Word. That a fault is a next state with its record in the latch is the
model's (assumption log 5), and that it leaves the rest alone is the spec's own decision D12 (assumption
log 12). -/
def Obligations.UndefinedOpcodeFaults : Prop :=
  ∀ s : State, s.halted = false → 0 ≤ s.pc → s.pc < (s.cfg.memSize : Int) →
    (∀ k, opcodeField (s.memRead s.pc.toNat) ≠ s.cfg.opmap.raw k) →
    ∃ t, step s = .next t ∧ s.faultsTo t .decodeError ∧
      t.fault = some { kind := .decodeError, pc := s.pc, word := some (s.memRead s.pc.toNat) }

/-- R156: a step of a HALTED CPU changes nothing and reports no fault record. That is the spec's own
decision D13 (assumption log 12). The report is read from the model's latch (assumption log 5). -/
def Obligations.HaltedStepChangesNothing : Prop :=
  ∀ s : State, s.halted = true → step s = .next s ∧ report s = none

/-- R158 and R10: every step terminates in a next state, from every state whatever; so does every
meaning. The model's outcomes fault and refused never occur. That a fault is a next state is the model's
reading of R216 (assumption log 5). -/
def Obligations.EveryStepHasNextState : Prop :=
  (∀ s : State, ∃ t, step s = .next t) ∧ (∀ (i : Instr) (s : State), ∃ t, exec i s = .next t)

/-- R216, R217: faults are precise. If a step reports a record, the CPU was RUNNING, the record holds
the `pc` of the start of the step and the Word fetched, the next state is halted, and nothing but the
halted flag and the latch has changed. That nothing else changes is the spec's own decision D12
(assumption log 12), and the next state and the latch are the model's (assumption log 5). -/
def Obligations.FaultsArePrecise : Prop :=
  ∀ (s t : State) (r : FaultRecord), step s = .next t → report s = some r →
    t = { s with halted := true, fault := some r } ∧ r.pc = s.pc ∧ r.word = s.fetch ∧
    s.halted = false

/-- R211, R212, R213, R215: which faults a step can take. MemoryFault at the fetch, or of LDW and STW at
an invalid address; DecodeError of an undefined opcode; StackFault of CALL at capacity and of RET on an
empty call stack. The report is read from the model's latch (assumption log 5), and the premise is the
call stack's bound of R31. -/
def Obligations.FaultKindsHaveTheirCauses : Prop :=
  ∀ (s : State) (r : FaultRecord), s.stackOk → report s = some r →
    match r.kind with
    | .memoryFault => s.fetch = none ∨
        ∃ w i, s.fetch = some w ∧ decode s.cfg.opmap w = .ok i ∧
          (i.mnemonic = .ldw ∨ i.mnemonic = .stw) ∧
          (s.ea i.src1 i.imm < 0 ∨ (s.cfg.memSize : Int) ≤ s.ea i.src1 i.imm)
    | .decodeError => ∃ w, s.fetch = some w ∧ ∀ k, opcodeField w ≠ s.cfg.opmap.raw k
    | .stackFault => ∃ w i, s.fetch = some w ∧ decode s.cfg.opmap w = .ok i ∧
        (i.mnemonic = .call ∧ s.depth = s.cfg.stackDepth ∨ i.mnemonic = .ret ∧ s.depth = 0)

/-- R154: one write a step, and where it goes. A step of a RUNNING CPU takes a fault, which writes
nothing but the halted flag, or it runs the decoded instruction i, and then: ADD, ADDI, SUB, SUBI and
LDW write at most the register i.dest (and R0 never changes); STW writes memory only at its effective
address `s.ea i.src1 i.imm`, as the meaning computes it; JMP and BRZ write `pc` alone; CALL and RET
write the call stack and `pc`; HALT writes the halted flag alone. No step writes the parameters. A fault
as a next state with its record in the latch is the model's (assumption log 5), and that it and HALT
leave the rest alone is the spec's own decision D12 (assumption log 12). -/
def Obligations.StepWritesAtMostOnePart : Prop :=
  ∀ s t : State, s.halted = false → step s = .next t →
    (∃ k, s.faultsTo t k) ∨
    ∃ w i, s.fetch = some w ∧ decode s.cfg.opmap w = .ok i ∧ t.cfg = s.cfg ∧ t.fault = s.fault ∧
      match i.mnemonic with
      | .add | .addi | .sub | .subi | .ldw =>
        s.keepsRegsBut t i.dest ∧ t.reg 0 = s.reg 0 ∧ s.keepsMem t ∧ t.stack = s.stack ∧
          t.halted = false ∧ t.pc = s.pc + 1
      | .stw =>
        s.keepsRegs t ∧ (∀ x : Nat, (x : Int) ≠ s.ea i.src1 i.imm → t.memRead x = s.memRead x) ∧
          0 ≤ s.ea i.src1 i.imm ∧ s.ea i.src1 i.imm < (s.cfg.memSize : Int) ∧
          t.stack = s.stack ∧ t.halted = false ∧ t.pc = s.pc + 1
      | .jmp | .brz => s.keepsRegs t ∧ s.keepsMem t ∧ t.stack = s.stack ∧ t.halted = false
      | .call | .ret => s.keepsRegs t ∧ s.keepsMem t ∧ t.halted = false
      | .halt =>
        s.keepsRegs t ∧ s.keepsMem t ∧ t.stack = s.stack ∧ t.halted = true ∧ t.pc = s.pc

/-- R28, R31, R32, R47: who writes what. Only ADD, ADDI, SUB, SUBI and LDW change a register, and only
their dest, never R0; only STW changes memory, and only at its effective address; only CALL and RET
change the call stack; and the halted flag is changed only by HALT, by LDW and STW where they take a
MemoryFault, and by CALL and RET where they take a StackFault. A fault as a next state with its record
in the latch is the model's (assumption log 5), and that it leaves the rest alone is the spec's own
decision D12 (assumption log 12). -/
def Obligations.OnlyNamedInstructionsWriteEachPart : Prop :=
  ∀ (i : Instr) (s t : State), exec i s = .next t →
    (∀ r, t.reg r ≠ s.reg r →
      i.mnemonic ∈ [.add, .addi, .sub, .subi, .ldw] ∧ r = i.dest ∧ r ≠ 0) ∧
    (∀ x : Nat, t.memRead x ≠ s.memRead x → i.mnemonic = .stw ∧ (x : Int) = s.ea i.src1 i.imm) ∧
    (t.stack ≠ s.stack → i.mnemonic = .call ∨ i.mnemonic = .ret) ∧
    (t.halted ≠ s.halted →
      i.mnemonic = .halt ∨
      (i.mnemonic ∈ [.ldw, .stw] ∧ s.faultsTo t .memoryFault) ∨
      (i.mnemonic ∈ [.call, .ret] ∧ s.faultsTo t .stackFault))

/-- R32, R218: RUNNING becomes HALTED only by HALT, which reports nothing, or by a fault, which reports
its record; and HALTED is terminal: any number of further steps leaves the state as it is. That a halted
CPU's step changes nothing is the spec's own decision D13 (assumption log 12), and the report is read
from the model's latch, where a fault, as a next state, leaves its record (assumption log 5). -/
def Obligations.HaltedOnlyByHaltOrFaultAndTerminal : Prop :=
  (∀ s t : State, s.halted = false → step s = .next t → t.halted = true →
    (∃ w i, s.fetch = some w ∧ decode s.cfg.opmap w = .ok i ∧ i.mnemonic = .halt ∧
      report s = none ∧ t.fault = s.fault) ∨
    (∃ r, report s = some r ∧ t.fault = some r)) ∧
  (∀ (k : Nat) (s : State), s.halted = true → Sys2Proof.core.run k s = .next s)

/-- R29, R31, R33, R35, R216, R217 together, as an invariant: from every state with parameters within
R6, `pc` in the range of a Word, memory in canonical form below `MEM_SIZE`, the call stack within
`STACK_DEPTH` with entries from 1 to `MEM_SIZE`, and a latched record only on a halted CPU and with its
`pc` and Word, a step gives such a state with the same parameters. The range of `pc` is the spec's own
decision D9 (assumption log 11), the canonical form and the latch are the model's (logs 3 and 5). -/
def Obligations.StepKeepsStateWellFormed : Prop :=
  ∀ s t : State, s.wf → step s = .next t → t.wf ∧ t.cfg = s.cfg

/-- The invariant holds at reset (whose parameters are the model's choice, assumption log 1), and in
every CPU that construction gives (assumption log 15). -/
def Obligations.ConstructedStateIsWellFormed : Prop :=
  State.reset.wf ∧ ∀ (c : Config) (s : State), construct c = some s → s.wf

/-! ## The host's side (70_reset_and_hazards.md, 43_fde_engine.md R157) -/

/-- R240, R36 (after construction): within the parameters of R6, every register and every Word of memory
is the zero Word, `pc` is 0, the call stack is empty and the CPU is RUNNING. Reset is the construction
with the standard configuration, whose numbers are the model's choice (assumption log 1). The zero
values are the spec's own decision D10 (assumption log 2). -/
def Obligations.ConstructionZeroesEverything : Prop :=
  (∀ c : Config, c.wf → ∃ s, construct c = some s ∧ s.cfg = c ∧ s.pc = 0 ∧
    (∀ r, regInRange r → s.reg r = Word.zero) ∧ (∀ a : Nat, s.memRead a = Word.zero) ∧
    s.stack = [] ∧ s.depth = 0 ∧ s.halted = false) ∧
  construct Config.standard = some State.reset

/-- R240 (its last sentence): a CPU that has only been constructed, under the default map, halts at its
first step with the record (DecodeError, 0, zero Word). It rests on the spec's own decisions D1 and D10
(assumption logs 2 and 4) and on its inference from R77. That a fault is a next state with its record in
the latch is the model's (assumption log 5), and that it leaves the rest alone is the spec's own
decision D12 (assumption log 12). -/
def Obligations.UnloadedCpuHaltsWithDecodeError : Prop :=
  ∀ (c : Config) (s : State), c.opmap = OpMap.default → construct c = some s →
    ∃ t, step s = .next t ∧ s.faultsTo t .decodeError ∧
      report s = some { kind := .decodeError, pc := 0, word := some Word.zero }

/-- R243: a program load that fits places the stream at its base, sets `pc` to the base, empties the
call stack and sets RUNNING, and touches no register and no other address; one that does not fit is
refused with kind MemoryFault. The refusal, and the load on a CPU that is not new, are the spec's own
decision D11 (assumption log 12). A load that fits keeps the state invariant, and the latch is empty
after it: the canonical form and the latch in them are the model's (assumption logs 3 and 5), the range
of `pc` the spec's own decision D9 (assumption log 11). -/
def Obligations.LoadPlacesProgramOrRefuses : Prop :=
  ∀ (s : State) (stream : List Word) (base : Int),
    (0 ≤ base → base + stream.length ≤ (s.cfg.memSize : Int) →
      ∃ t, load s stream base = .ok t ∧
        (∀ (k : Nat) (w : Word), stream[k]? = some w → t.memRead (base.toNat + k) = w) ∧
        (∀ x : Nat, (x : Int) < base ∨ base + stream.length ≤ x → t.memRead x = s.memRead x) ∧
        t.pc = base ∧ t.stack = [] ∧ t.halted = false ∧ s.keepsRegs t ∧ t.cfg = s.cfg ∧
        t.fault = none ∧ (s.wf → t.wf)) ∧
    (base < 0 ∨ (s.cfg.memSize : Int) < base + stream.length →
      load s stream base = .error .memoryFault)

/-- R157, R159, with the fuel that R157 asks a model to give `run` (assumption log 16). On a HALTED CPU
`run` returns at once with the state unchanged and no record. On a RUNNING CPU, whenever n steps end
HALTED, `run` with fuel n returns that state and the report of the last step, the one that halted it.
Whatever `run` returns is HALTED and is what that many steps give, and more fuel never changes it. The
report of a step that halts a RUNNING CPU is none exactly when the step ran HALT, and else the record in
the latch, which is the model's (assumption log 5). That the steps of a HALTED CPU change nothing is the
spec's own decision D13 (assumption log 12). -/
def Obligations.RunIteratesStepUntilHalted : Prop :=
  (∀ (n : Nat) (s : State), s.halted = true → run n s = some (s, none)) ∧
  (∀ (n : Nat) (s t : State), s.halted = false → Sys2Proof.core.run n s = .next t →
    t.halted = true →
    ∃ k u, k < n ∧ Sys2Proof.core.run k s = .next u ∧ u.halted = false ∧ step u = .next t ∧
      run n s = some (t, report u)) ∧
  (∀ (n : Nat) (s t : State) (r : Option FaultRecord), run n s = some (t, r) →
    t.halted = true ∧ Sys2Proof.core.run n s = .next t ∧ ∀ m, run (n + m) s = some (t, r)) ∧
  (∀ u t : State, u.halted = false → step u = .next t → t.halted = true →
    (report u = none ↔ ∃ w i, u.fetch = some w ∧ decode u.cfg.opmap w = .ok i ∧
      i.mnemonic = .halt) ∧
    ∀ r, report u = some r → t.fault = some r)
end

