-- ==== Sys2Proof/Laws/Converter.lean ====
section
/-! SUPPORT. The laws of trit sequences of any width (40_converter.md R92, R93): bounds, uniqueness, the
digit loop, and how a sequence splits into parts. -/
namespace Sys2Proof.Machine
open Sys2Proof

namespace TritLaws

theorem tritsMax_zero : tritsMax 0 = 0 := rfl

theorem tritsMax_succ (k : Nat) : tritsMax (k + 1) = 3 * tritsMax k + 1 := by
  have h : 3 ^ k % 2 = 1 := by
    rw [Nat.pow_mod]; simp
  unfold tritsMax
  rw [pow_succ]
  omega

/-- `3^k = 2 * ((3^k - 1)/2) + 1`. -/
theorem pow_eq (k : Nat) : (3 : Int) ^ k = 2 * (tritsMax k : Int) + 1 := by
  induction k with
  | zero => rfl
  | succ k ih => rw [pow_succ, ih, tritsMax_succ]; push_cast; ring

theorem tritValue_bounds (t : Trit) : -1 ≤ tritValue t ∧ tritValue t ≤ 1 := by
  cases t <;> decide

/-- The value of a sequence of width `k` lies in `±(3^k - 1)/2`. -/
theorem tritsInt_bounds (ts : List Trit) :
    -(tritsMax ts.length : Int) ≤ tritsInt ts ∧ tritsInt ts ≤ tritsMax ts.length := by
  induction ts with
  | nil => simp [tritsInt, tritsMax_zero]
  | cons t ts ih =>
    have := tritValue_bounds t
    simp only [tritsInt, List.length_cons, tritsMax_succ]
    push_cast
    omega

/-- The low trit takes away the remainder modulo 3. -/
theorem lowTrit_spec (n : Int) : n = tritValue (lowTrit n) + 3 * ((n - tritValue (lowTrit n)) / 3) := by
  unfold lowTrit
  split
  · simp only [tritValue]; omega
  · split <;> simp only [tritValue] <;> omega

/-- The low trit of a sequence's value is its trit at position 0. -/
theorem lowTrit_cons (t : Trit) (n : Int) : lowTrit (tritValue t + 3 * n) = t := by
  unfold lowTrit
  cases t <;> simp only [tritValue]
  · have : (-1 + 3 * n) % 3 = 2 := by omega
    simp [this]
  · simp
  · have : (1 + 3 * n) % 3 = 1 := by omega
    simp [this]

/-- The digit loop undoes `int` on every sequence, so a sequence is determined by its width and value. -/
theorem tritsOfInt_tritsInt (ts : List Trit) : tritsOfInt ts.length (tritsInt ts) = ts := by
  induction ts with
  | nil => rfl
  | cons t ts ih =>
    have hd : (tritValue t + 3 * tritsInt ts - tritValue t) / 3 = tritsInt ts := by omega
    simp only [tritsInt, List.length_cons, tritsOfInt, lowTrit_cons, hd, ih]

/-- Two sequences of one width with one value are equal (10_state.md R23). -/
theorem tritsInt_inj {as bs : List Trit} (hl : as.length = bs.length)
    (h : tritsInt as = tritsInt bs) : as = bs := by
  rw [← tritsOfInt_tritsInt as, ← tritsOfInt_tritsInt bs, hl, h]

/-- The digit loop's value differs from the integer by a multiple of `3^k`. -/
theorem tritsInt_tritsOfInt_dvd (k : Nat) (n : Int) :
    (3 : Int) ^ k ∣ n - tritsInt (tritsOfInt k n) := by
  induction k generalizing n with
  | zero => simp
  | succ k ih =>
    obtain ⟨c, hc⟩ := ih ((n - tritValue (lowTrit n)) / 3)
    refine ⟨c, ?_⟩
    have := lowTrit_spec n
    simp only [tritsOfInt, tritsInt]
    rw [pow_succ]
    linear_combination this + 3 * hc

/-- `bal_mod(n, m)` is the one integer congruent to `n` within `±(m-1)/2`, for an odd modulus. -/
theorem balMod_unique {n m r h : Int} (hm : m = 2 * h + 1) (hlo : -h ≤ r) (hhi : r ≤ h)
    (hd : m ∣ n - r) : balMod n m = r := by
  obtain ⟨c, hc⟩ := hd
  have hh : (m - 1) / 2 = h := by omega
  have hn : n + h = (r + h) + m * c := by linear_combination hc
  unfold balMod
  rw [hh, hn, Int.add_mul_emod_self_left, Int.emod_eq_of_lt (by omega) (by omega)]
  ring

/-- `bal_mod(n, 3^k)` of 00_scope.md R8 is congruent to `n` and within `±(3^k - 1)/2`. -/
theorem balMod_spec (n : Int) (k : Nat) :
    (3 : Int) ^ k ∣ n - balMod n ((3 ^ k : Nat) : Int) ∧
      -(tritsMax k : Int) ≤ balMod n ((3 ^ k : Nat) : Int) ∧
      balMod n ((3 ^ k : Nat) : Int) ≤ tritsMax k := by
  have hp := pow_eq k
  push_cast
  unfold balMod
  have hh : ((3 : Int) ^ k - 1) / 2 = tritsMax k := by omega
  rw [hh]
  have h0 := Int.emod_nonneg (n + tritsMax k) (b := (3 : Int) ^ k) (by positivity)
  have h1 := Int.emod_lt_of_pos (n + tritsMax k) (b := (3 : Int) ^ k) (by positivity)
  have he := Int.emod_add_mul_ediv (n + tritsMax k) ((3 : Int) ^ k)
  refine ⟨⟨(n + tritsMax k) / 3 ^ k, by linear_combination -he⟩, by omega, by omega⟩

/-- The digit loop's value is `bal_mod(n, 3^k)` for every integer. -/
theorem tritsInt_tritsOfInt (k : Nat) (n : Int) :
    tritsInt (tritsOfInt k n) = balMod n ((3 ^ k : Nat) : Int) := by
  have hb := tritsInt_bounds (tritsOfInt k n)
  rw [tritsOfInt_length] at hb
  refine (balMod_unique (h := tritsMax k) ?_ hb.1 hb.2 ?_).symm
  · push_cast; exact pow_eq k
  · push_cast; exact tritsInt_tritsOfInt_dvd k n

/-- An integer within `±(3^k - 1)/2` is its own `bal_mod`. -/
theorem balMod_of_range {k : Nat} {n : Int} (h1 : -(tritsMax k : Int) ≤ n) (h2 : n ≤ tritsMax k) :
    balMod n ((3 ^ k : Nat) : Int) = n :=
  balMod_unique (h := tritsMax k) (by push_cast; exact pow_eq k) h1 h2 (by simp)

/-- Within range the digit loop is exact (40_converter.md R93). -/
theorem tritsInt_tritsOfInt_of_range {k : Nat} {n : Int} (h1 : -(tritsMax k : Int) ≤ n)
    (h2 : n ≤ tritsMax k) : tritsInt (tritsOfInt k n) = n := by
  rw [tritsInt_tritsOfInt, balMod_of_range h1 h2]

/-- A sequence's value is that of its low part plus the weighted value of its high part
(30_encoding.md R62). -/
theorem tritsInt_append (as bs : List Trit) :
    tritsInt (as ++ bs) = tritsInt as + 3 ^ as.length * tritsInt bs := by
  induction as with
  | nil => simp [tritsInt]
  | cons a as ih =>
    simp only [List.cons_append, tritsInt, ih, List.length_cons, pow_succ]
    ring

theorem tritsInt_replicate_zero (k : Nat) : tritsInt (List.replicate k Trit.zero) = 0 := by
  induction k with
  | zero => rfl
  | succ k ih => simp [List.replicate_succ, tritsInt, tritValue, ih]

/-- The zero Word's value. -/
@[simp] theorem intFromWord_zero : intFromWord Word.zero = 0 := tritsInt_replicate_zero 27

/-- A Word's value is in range. -/
theorem intFromWord_bounds (w : Word) : -(wordMax : Int) ≤ intFromWord w ∧ intFromWord w ≤ wordMax := by
  have h := tritsInt_bounds w.trits
  rw [w.width] at h
  exact h

/-- Words with one value are equal (10_state.md R23). -/
theorem intFromWord_inj {a b : Word} (h : intFromWord a = intFromWord b) : a = b := by
  cases a; cases b
  simp only [intFromWord] at h
  congr
  exact tritsInt_inj (by simp_all) h

/-- The value of the digit loop's Word, for every integer. -/
theorem intFromWord_wordOfInt (n : Int) : intFromWord (wordOfInt n) = wrap27 n :=
  tritsInt_tritsOfInt 27 n

end TritLaws

end Sys2Proof.Machine
end

