-- ==== Sys2Proof/Laws/Adder.lean ====
section
/-! SUPPORT. The laws of the full-adder cell and of a chain of cells of any length
(41_adder_negation.md R111, R113, R115). -/
namespace Sys2Proof.Machine
open Sys2Proof

namespace AdderLaws

/-- The cell keeps the sum of its three inputs. -/
theorem fullAdd_sum (a b c : Trit) :
    tritValue (fullAdd a b c).1 + 3 * tritValue (fullAdd a b c).2 =
      tritValue a + tritValue b + tritValue c := by
  cases a <;> cases b <;> cases c <;> rfl

/-- A chain keeps the sum of its operands and its incoming carry, up to the weight of its last carry. -/
theorem addChain_sum (c : Trit) (as bs : List Trit) (h : as.length = bs.length) :
    tritsInt (addChain c as bs).1 + 3 ^ as.length * tritValue (addChain c as bs).2 =
      tritsInt as + tritsInt bs + tritValue c := by
  induction as generalizing c bs with
  | nil =>
    cases bs with
    | nil => simp [addChain, tritsInt]
    | cons b bs => simp at h
  | cons a as ih =>
    cases bs with
    | nil => simp at h
    | cons b bs =>
      have ih' := ih (fullAdd a b c).2 bs (by simpa using h)
      have hf := fullAdd_sum a b c
      simp only [addChain, tritsInt, List.length_cons, pow_succ]
      linear_combination 3 * ih' + hf

theorem tritValue_negTrit (t : Trit) : tritValue (negTrit t) = -tritValue t := by
  cases t <;> rfl

/-- Flipping every trit of a sequence negates its value. -/
theorem tritsInt_map_negTrit (ts : List Trit) : tritsInt (ts.map negTrit) = -tritsInt ts := by
  induction ts with
  | nil => rfl
  | cons t ts ih => simp only [List.map_cons, tritsInt, tritValue_negTrit, ih]; ring

/-- The sum of two Words is congruent to the sum of their values modulo `3^27`. -/
theorem addWord_dvd (a b : Word) :
    (3 : Int) ^ 27 ∣ (intFromWord a + intFromWord b) - intFromWord (addWord a b) := by
  have h := addChain_sum .zero a.trits b.trits (by rw [a.width, b.width])
  rw [a.width] at h
  refine ⟨tritValue (addChain .zero a.trits b.trits).2, ?_⟩
  simp only [intFromWord, addWord, tritValue] at h ⊢
  linear_combination -h

/-- Any integer congruent to a Word's value modulo `3^27` wraps to it. -/
theorem wrap27_eq_of_dvd {n : Int} {w : Word} (h : (3 : Int) ^ 27 ∣ n - intFromWord w) :
    wrap27 n = intFromWord w := by
  have hb := TritLaws.intFromWord_bounds w
  refine TritLaws.balMod_unique (h := wordMax) ?_ hb.1 hb.2 ?_
  · have := TritLaws.pow_eq 27
    push_cast
    exact this
  · push_cast; exact h

/-- An effective address fits a Word (45_memory_instructions.md R180). -/
theorem ea_bounds (s : State) (src1 imm : Int) :
    -(wordMax : Int) ≤ s.ea src1 imm ∧ s.ea src1 imm ≤ wordMax :=
  TritLaws.intFromWord_bounds _

end AdderLaws

end Sys2Proof.Machine
end

