-- ==== Sys2Proof/Laws/Codec.lean ====
section
/-! SUPPORT. The laws of the codec's parts (30_encoding.md, 42_codec.md): the opcode map and its
inverse, how a Word splits into its five fields, and what each field of a packed Word holds. -/
namespace Sys2Proof.Machine
open Sys2Proof

namespace CodecLaws

/-- Every mnemonic is in the list of all. -/
theorem mem_all (k : Mnemonic) : k ∈ Mnemonic.all := by
  cases k <;> simp [Mnemonic.all]

/-- A raw opcode of a map within 00_scope.md R6 fits its field. -/
theorem raw_range {m : OpMap} (h : m.wf) (k : Mnemonic) :
    -(tritsMax 6 : Int) ≤ m.raw k ∧ m.raw k ≤ tritsMax 6 := h.1 k (mem_all k)

/-- A map within 00_scope.md R6 is injective. -/
theorem raw_inj {m : OpMap} (h : m.wf) {j k : Mnemonic} (e : m.raw j = m.raw k) : j = k :=
  List.inj_on_of_nodup_map h.2 (mem_all j) (mem_all k) e

/-- What the inverse map answers has the raw opcode that was asked for. -/
theorem mnemonicOf_some {m : OpMap} {op : Int} {k : Mnemonic} (h : m.mnemonicOf op = some k) :
    m.raw k = op := by
  have := List.find?_some h
  simpa using this

/-- The inverse map answers none exactly on an undefined opcode (30_encoding.md R76). -/
theorem mnemonicOf_none {m : OpMap} {op : Int} :
    m.mnemonicOf op = none ↔ ∀ k, m.raw k ≠ op := by
  simp only [OpMap.mnemonicOf, List.find?_eq_none, decide_eq_true_eq]
  exact ⟨fun h k => h k (mem_all k), fun h k _ => h k⟩

/-- The inverse map undoes a map within 00_scope.md R6. -/
theorem mnemonicOf_raw {m : OpMap} (h : m.wf) (k : Mnemonic) : m.mnemonicOf (m.raw k) = some k := by
  cases hk : m.mnemonicOf (m.raw k) with
  | none => exact absurd rfl (mnemonicOf_none.mp hk k)
  | some j => rw [raw_inj h (mnemonicOf_some hk)]

/-- The five fields partition a Word with no overlap and no gap (30_encoding.md R61). -/
theorem slices_append (w : Word) :
    slice w 0 12 ++ (slice w 12 3 ++ (slice w 15 3 ++ (slice w 18 3 ++ slice w 21 6))) = w.trits := by
  have h6 : slice w 21 6 = w.trits.drop 21 :=
    List.take_of_length_le (by rw [List.length_drop, w.width])
  have step : ∀ lo k : Nat, slice w lo k ++ w.trits.drop (lo + k) = w.trits.drop lo := by
    intro lo k
    rw [slice, ← List.drop_drop, List.take_append_drop]
  rw [h6, step 18 3, step 15 3, step 12 3, step 0 12, List.drop_zero]

theorem slice_length (w : Word) (lo k : Nat) (h : lo + k ≤ 27) : (slice w lo k).length = k := by
  have := w.width
  simp only [slice, List.length_take, List.length_drop]
  omega

/-- A field's value is within its width's range. -/
theorem fieldOf_bounds (w : Word) (lo k : Nat) (h : lo + k ≤ 27) :
    -(tritsMax k : Int) ≤ fieldOf w lo k ∧ fieldOf w lo k ≤ tritsMax k := by
  have hb := TritLaws.tritsInt_bounds (slice w lo k)
  rwa [slice_length w lo k h] at hb

/-- A packed Word's parts, each as the sequence that was packed. -/
theorem slices_of_pack {w : Word} {op d a b imm : Int} (h : w.trits = packTrits op d a b imm) :
    slice w 0 12 = tritsOfInt 12 imm ∧ slice w 12 3 = tritsOfInt 3 b ∧
      slice w 15 3 = tritsOfInt 3 a ∧ slice w 18 3 = tritsOfInt 3 d ∧
      slice w 21 6 = tritsOfInt 6 op := by
  have e := (slices_append w).trans h
  have l : ∀ k n, (tritsOfInt k n).length = k := tritsOfInt_length
  obtain ⟨e0, e⟩ := List.append_inj e (by rw [slice_length w 0 12 (by omega), l])
  obtain ⟨e1, e⟩ := List.append_inj e (by rw [slice_length w 12 3 (by omega), l])
  obtain ⟨e2, e⟩ := List.append_inj e (by rw [slice_length w 15 3 (by omega), l])
  obtain ⟨e3, e⟩ := List.append_inj e (by rw [slice_length w 18 3 (by omega), l])
  exact ⟨e0, e1, e2, e3, e⟩

/-- Everything `encode` can answer: the packed Word of an Instruction in range. -/
theorem encode_ok {m : OpMap} {i : Instr} {w : Word} (h : encode m i = .ok w) :
    i.WellFormed ∧ w.trits = packTrits (m.raw i.mnemonic) (rawOfReg i.dest) (rawOfReg i.src1)
      (rawOfReg i.src2) i.imm := by
  unfold encode at h
  split at h
  · rename_i hw
    cases h
    exact ⟨hw, rfl⟩
  · cases h

/-- Everything `decode` can answer: the Instruction whose components are the Word's fields. -/
theorem decode_ok {m : OpMap} {i : Instr} {w : Word} (h : decode m w = .ok i) :
    ∃ k, m.raw k = opcodeField w ∧
      i = Instr.make k (destField w + 13) (src1Field w + 13) (src2Field w + 13) (immField w) := by
  unfold decode at h
  split at h
  · cases h
  · rename_i k hk
    cases h
    exact ⟨k, mnemonicOf_some hk, rfl⟩

/-- The components of an Instruction made from five components (42_codec.md R130). -/
@[simp] theorem make_mnemonic (k : Mnemonic) (d a b n : Int) : (Instr.make k d a b n).mnemonic = k := by
  cases k <;> rfl
@[simp] theorem make_dest (k : Mnemonic) (d a b n : Int) : (Instr.make k d a b n).dest = d := by
  cases k <;> rfl
@[simp] theorem make_src1 (k : Mnemonic) (d a b n : Int) : (Instr.make k d a b n).src1 = a := by
  cases k <;> rfl
@[simp] theorem make_src2 (k : Mnemonic) (d a b n : Int) : (Instr.make k d a b n).src2 = b := by
  cases k <;> rfl
@[simp] theorem make_imm (k : Mnemonic) (d a b n : Int) : (Instr.make k d a b n).imm = n := by
  cases k <;> rfl

end CodecLaws

end Sys2Proof.Machine
end

