-- ==== Sys2Proof/Laws/State.lean ====
section
/-! SUPPORT. The small lemmas of State: one per field per update, true by rfl, so that no later proof
unfolds a record update; and what each shared operation over registers can do. -/
namespace Sys2Proof.Machine
open Sys2Proof

namespace StateLaws

@[simp] theorem setReg_cfg (s : State) (i : Int) (v : Word) : (s.setReg i v).cfg = s.cfg := rfl
@[simp] theorem setReg_pc (s : State) (i : Int) (v : Word) : (s.setReg i v).pc = s.pc := rfl
theorem setReg_regs (s : State) (i : Int) (v : Word) : (s.setReg i v).regs = if i ≤ 0 then s.regs else s.regs.setIfInBounds (i.toNat - 1) v := rfl
@[simp] theorem setReg_mem (s : State) (i : Int) (v : Word) : (s.setReg i v).mem = s.mem := rfl
@[simp] theorem setReg_stack (s : State) (i : Int) (v : Word) : (s.setReg i v).stack = s.stack := rfl
@[simp] theorem setReg_halted (s : State) (i : Int) (v : Word) : (s.setReg i v).halted = s.halted := rfl
@[simp] theorem setReg_fault (s : State) (i : Int) (v : Word) : (s.setReg i v).fault = s.fault := rfl

@[simp] theorem setPc_cfg (s : State) (t : Int) : (s.setPc t).cfg = s.cfg := rfl
@[simp] theorem setPc_pc (s : State) (t : Int) : (s.setPc t).pc = t := rfl
@[simp] theorem setPc_regs (s : State) (t : Int) : (s.setPc t).regs = s.regs := rfl
@[simp] theorem setPc_mem (s : State) (t : Int) : (s.setPc t).mem = s.mem := rfl
@[simp] theorem setPc_stack (s : State) (t : Int) : (s.setPc t).stack = s.stack := rfl
@[simp] theorem setPc_halted (s : State) (t : Int) : (s.setPc t).halted = s.halted := rfl
@[simp] theorem setPc_fault (s : State) (t : Int) : (s.setPc t).fault = s.fault := rfl

@[simp] theorem advance_cfg (s : State) : (s.advance).cfg = s.cfg := rfl
@[simp] theorem advance_pc (s : State) : (s.advance).pc = s.pc + 1 := rfl
@[simp] theorem advance_regs (s : State) : (s.advance).regs = s.regs := rfl
@[simp] theorem advance_mem (s : State) : (s.advance).mem = s.mem := rfl
@[simp] theorem advance_stack (s : State) : (s.advance).stack = s.stack := rfl
@[simp] theorem advance_halted (s : State) : (s.advance).halted = s.halted := rfl
@[simp] theorem advance_fault (s : State) : (s.advance).fault = s.fault := rfl

@[simp] theorem memWrite_cfg (s : State) (a : Nat) (v : Word) : (s.memWrite a v).cfg = s.cfg := rfl
@[simp] theorem memWrite_pc (s : State) (a : Nat) (v : Word) : (s.memWrite a v).pc = s.pc := rfl
@[simp] theorem memWrite_regs (s : State) (a : Nat) (v : Word) : (s.memWrite a v).regs = s.regs := rfl
@[simp] theorem memWrite_mem (s : State) (a : Nat) (v : Word) : (s.memWrite a v).mem = s.mem.write a v := rfl
@[simp] theorem memWrite_stack (s : State) (a : Nat) (v : Word) : (s.memWrite a v).stack = s.stack := rfl
@[simp] theorem memWrite_halted (s : State) (a : Nat) (v : Word) : (s.memWrite a v).halted = s.halted := rfl
@[simp] theorem memWrite_fault (s : State) (a : Nat) (v : Word) : (s.memWrite a v).fault = s.fault := rfl

@[simp] theorem push_cfg (s : State) (v : Int) : (s.push v).cfg = s.cfg := rfl
@[simp] theorem push_pc (s : State) (v : Int) : (s.push v).pc = s.pc := rfl
@[simp] theorem push_regs (s : State) (v : Int) : (s.push v).regs = s.regs := rfl
@[simp] theorem push_mem (s : State) (v : Int) : (s.push v).mem = s.mem := rfl
@[simp] theorem push_stack (s : State) (v : Int) : (s.push v).stack = v :: s.stack := rfl
@[simp] theorem push_halted (s : State) (v : Int) : (s.push v).halted = s.halted := rfl
@[simp] theorem push_fault (s : State) (v : Int) : (s.push v).fault = s.fault := rfl

@[simp] theorem dropTop_cfg (s : State) : (s.dropTop).cfg = s.cfg := rfl
@[simp] theorem dropTop_pc (s : State) : (s.dropTop).pc = s.pc := rfl
@[simp] theorem dropTop_regs (s : State) : (s.dropTop).regs = s.regs := rfl
@[simp] theorem dropTop_mem (s : State) : (s.dropTop).mem = s.mem := rfl
@[simp] theorem dropTop_stack (s : State) : (s.dropTop).stack = s.stack.tail := rfl
@[simp] theorem dropTop_halted (s : State) : (s.dropTop).halted = s.halted := rfl
@[simp] theorem dropTop_fault (s : State) : (s.dropTop).fault = s.fault := rfl

@[simp] theorem halt_cfg (s : State) : (s.halt).cfg = s.cfg := rfl
@[simp] theorem halt_pc (s : State) : (s.halt).pc = s.pc := rfl
@[simp] theorem halt_regs (s : State) : (s.halt).regs = s.regs := rfl
@[simp] theorem halt_mem (s : State) : (s.halt).mem = s.mem := rfl
@[simp] theorem halt_stack (s : State) : (s.halt).stack = s.stack := rfl
@[simp] theorem halt_halted (s : State) : (s.halt).halted = true := rfl
@[simp] theorem halt_fault (s : State) : (s.halt).fault = s.fault := rfl

@[simp] theorem raise_cfg (s : State) (k : Fault) : (s.raise k).cfg = s.cfg := rfl
@[simp] theorem raise_pc (s : State) (k : Fault) : (s.raise k).pc = s.pc := rfl
@[simp] theorem raise_regs (s : State) (k : Fault) : (s.raise k).regs = s.regs := rfl
@[simp] theorem raise_mem (s : State) (k : Fault) : (s.raise k).mem = s.mem := rfl
@[simp] theorem raise_stack (s : State) (k : Fault) : (s.raise k).stack = s.stack := rfl
@[simp] theorem raise_halted (s : State) (k : Fault) : (s.raise k).halted = true := rfl
@[simp] theorem raise_fault (s : State) (k : Fault) : (s.raise k).fault = some (s.record k) := rfl

/-! Registers and memory through the updates that do not touch them. -/

@[simp] theorem setReg_memRead (s : State) (i : Int) (v : Word) (x : Nat) : (s.setReg i v).memRead x = s.memRead x := rfl
@[simp] theorem setPc_reg (s : State) (t : Int) (r : Int) : (s.setPc t).reg r = s.reg r := rfl
@[simp] theorem setPc_memRead (s : State) (t : Int) (x : Nat) : (s.setPc t).memRead x = s.memRead x := rfl
@[simp] theorem advance_reg (s : State) (r : Int) : (s.advance).reg r = s.reg r := rfl
@[simp] theorem advance_memRead (s : State) (x : Nat) : (s.advance).memRead x = s.memRead x := rfl
@[simp] theorem memWrite_reg (s : State) (a : Nat) (v : Word) (r : Int) : (s.memWrite a v).reg r = s.reg r := rfl
@[simp] theorem push_reg (s : State) (v : Int) (r : Int) : (s.push v).reg r = s.reg r := rfl
@[simp] theorem push_memRead (s : State) (v : Int) (x : Nat) : (s.push v).memRead x = s.memRead x := rfl
@[simp] theorem dropTop_reg (s : State) (r : Int) : (s.dropTop).reg r = s.reg r := rfl
@[simp] theorem dropTop_memRead (s : State) (x : Nat) : (s.dropTop).memRead x = s.memRead x := rfl
@[simp] theorem halt_reg (s : State) (r : Int) : (s.halt).reg r = s.reg r := rfl
@[simp] theorem halt_memRead (s : State) (x : Nat) : (s.halt).memRead x = s.memRead x := rfl
@[simp] theorem raise_reg (s : State) (k : Fault) (r : Int) : (s.raise k).reg r = s.reg r := rfl
@[simp] theorem raise_memRead (s : State) (k : Fault) (x : Nat) : (s.raise k).memRead x = s.memRead x := rfl

/-! The register file (10_state.md R26, R27). -/

/-- R0 reads the zero Word. -/
@[simp] theorem reg_zero (s : State) : s.reg 0 = Word.zero := rfl

/-- An index at or below 0 reads the zero Word. -/
theorem reg_of_le_zero (s : State) (i : Int) (h : i ≤ 0) : s.reg i = Word.zero := by
  simp [State.reg, h]

/-- A register that was just written reads the Word written. -/
theorem setReg_reg_same (s : State) (i : Int) (v : Word) (h1 : 1 ≤ i) (h2 : i ≤ 26) :
    (s.setReg i v).reg i = v := by
  have h : ¬ i ≤ 0 := by omega
  have hb : i.toNat - 1 < 26 := by omega
  simp [State.reg, State.setReg, h, hb]

/-- A write to one register leaves every other one alone, R0 too. -/
theorem setReg_reg_other (s : State) (i j : Int) (v : Word) (h : j ≠ i) :
    (s.setReg i v).reg j = s.reg j := by
  unfold State.reg State.setReg
  by_cases hj : j ≤ 0
  · simp [hj]
  · by_cases hi : i ≤ 0
    · simp [hi]
    · have hne : i.toNat - 1 ≠ j.toNat - 1 := by omega
      simp [hj, hi, hne]

/-- A write to R0, or to an index that names no register, changes nothing. -/
theorem setReg_discarded (s : State) (i : Int) (v : Word) (h : i ≤ 0 ∨ 26 < i) :
    s.setReg i v = s := by
  rcases h with h | h
  · simp [State.setReg, h]
  · have h0 : ¬ i ≤ 0 := by omega
    have hb : 26 ≤ i.toNat - 1 := by omega
    have hset : s.regs.setIfInBounds (i.toNat - 1) v = s.regs := by
      ext k hk
      have : i.toNat - 1 ≠ k := by omega
      simp [this]
    simp [State.setReg, h0, hset]

/-- All that the register write can do, read through the register file. -/
theorem setReg_reg (s : State) (i j : Int) (v : Word) :
    (s.setReg i v).reg j = if j = i ∧ 1 ≤ i ∧ i ≤ 26 then v else s.reg j := by
  by_cases hji : j = i
  · subst hji
    by_cases h : 1 ≤ j ∧ j ≤ 26
    · simp [h, setReg_reg_same s j v h.1 h.2]
    · rw [setReg_discarded s j v (by omega)]; simp [h]
  · simp [hji, setReg_reg_other s i j v hji]

/-- All that the common end of an arithmetic instruction can do (43_fde_engine.md R155). -/
theorem finish_eq (s : State) (d : Int) (v : Word) :
    s.finish d v = { s with pc := s.pc + 1, regs := (s.setReg d v).regs } := rfl

/-- A register after the common end of an arithmetic instruction. -/
theorem finish_reg (s : State) (d r : Int) (v : Word) :
    (s.finish d v).reg r = if r = d ∧ 1 ≤ d ∧ d ≤ 26 then v else s.reg r := by
  rw [State.finish, advance_reg, setReg_reg]

/-! The call stack, the fetch and the fault (10_state.md R31, 43_fde_engine.md R152,
60_exceptions.md R216). -/

theorem push_depth (s : State) (v : Int) : (s.push v).depth = s.depth + 1 := rfl

theorem dropTop_push (s : State) (v : Int) : (s.push v).dropTop = s := rfl

/-- The bounds check (20_memory.md R42). -/
theorem validAddr_iff (s : State) (a : Int) :
    s.validAddr a = true ↔ 0 ≤ a ∧ a < s.cfg.memSize := by
  simp [State.validAddr]

/-- The fetch answers a Word exactly at a valid `pc`, and then the Word that memory holds there. -/
theorem fetch_eq_some (s : State) (w : Word) :
    s.fetch = some w ↔ s.validAddr s.pc = true ∧ s.memRead s.pc.toNat = w := by
  by_cases h : s.validAddr s.pc <;> simp [State.fetch, h]

theorem fetch_eq_none (s : State) : s.fetch = none ↔ s.validAddr s.pc = false := by
  by_cases h : s.validAddr s.pc <;> simp [State.fetch, h]

/-- All that taking a fault changes: the halted flag and the latch. -/
theorem raise_eq (s : State) (k : Fault) :
    s.raise k = { s with halted := true, fault := some ⟨k, s.pc, s.fetch⟩ } := rfl

/-- Taking a fault leaves the fetched Word as it was. -/
@[simp] theorem raise_fetch (s : State) (k : Fault) : (s.raise k).fetch = s.fetch := rfl

end StateLaws

end Sys2Proof.Machine
end

