-- ==== Sys2Proof/Laws/Memory.lean ====
section
/-! SUPPORT. The laws of memory (20_memory.md R44, R45): what a read after a write gives, and that every
memory operation keeps the canonical form and the bound. -/
namespace Sys2Proof.Machine
open Sys2Proof

namespace MemoryLaws

/-- An address that is not listed reads as the zero Word. -/
theorem read_of_not_listed (m : Memory) (a : Nat) (h : ∀ x ∈ m, x.1 ≠ a) :
    m.read a = Word.zero := by
  induction m with
  | nil => rfl
  | cons x m ih =>
    obtain ⟨b, w⟩ := x
    have hb : b ≠ a := h (b, w) (by simp)
    simp only [Memory.read, hb, if_false]
    exact ih (fun y hy => h y (by simp [hy]))

/-- Erasing an address leaves nothing listed there. -/
theorem erase_not_listed (m : Memory) (a : Nat) : ∀ x ∈ m.erase a, x.1 ≠ a := by
  intro x hx
  simpa [Memory.erase] using (List.mem_filter.mp hx).2

/-- Erasing an address leaves every other read alone. -/
theorem erase_read_other (m : Memory) (a b : Nat) (h : b ≠ a) :
    (m.erase a).read b = m.read b := by
  induction m with
  | nil => rfl
  | cons x m ih =>
    obtain ⟨c, w⟩ := x
    by_cases hc : c = a
    · have hcb : ¬ c = b := fun e => h (e ▸ hc)
      simp only [Memory.erase, hc, List.filter_cons, ne_eq, not_true_eq_false, decide_false,
        Bool.false_eq_true, if_false]
      rw [hc] at hcb
      simp only [Memory.read, hcb, if_false]
      exact ih
    · simp only [Memory.erase, List.filter_cons, ne_eq, hc, not_false_eq_true, decide_true, if_true,
        Memory.read]
      split
      · rfl
      · exact ih

/-- Inserting an entry where the address is not listed reads back the entry, and leaves every other
read alone. -/
theorem insert_read (m : Memory) (a b : Nat) (v : Word) (h : ∀ x ∈ m, x.1 ≠ a) :
    (m.insert a v).read b = if b = a then v else m.read b := by
  induction m with
  | nil => simp [Memory.insert, Memory.read, eq_comm]
  | cons x m ih =>
    obtain ⟨c, w⟩ := x
    have hc : c ≠ a := h (c, w) (by simp)
    have ih' := ih (fun y hy => h y (by simp [hy]))
    unfold Memory.insert
    split
    · simp only [Memory.read, eq_comm]
    · simp only [Memory.read, ih']
      by_cases hcb : c = b
      · have : ¬ b = a := fun e => hc (hcb.trans e)
        simp [hcb, this]
      · simp [hcb]

/-- All that a memory write can do, read back: the address written holds the Word, and no other address
changes (20_memory.md R45). It holds of every list, in canonical form or not. -/
theorem write_read (m : Memory) (a b : Nat) (v : Word) :
    (m.write a v).read b = if b = a then v else m.read b := by
  unfold Memory.write
  split
  · rename_i hv
    by_cases hb : b = a
    · rw [hb, read_of_not_listed _ _ (erase_not_listed m a)]; simp [hv]
    · rw [erase_read_other m a b hb]; simp [hb]
  · rw [insert_read _ _ _ _ (erase_not_listed m a)]
    by_cases hb : b = a
    · simp [hb]
    · simp [hb, erase_read_other m a b hb]

/-- The same law on the state (20_memory.md R44, R45). -/
theorem memWrite_memRead (s : State) (a b : Nat) (v : Word) :
    (s.memWrite a v).memRead b = if b = a then v else s.memRead b := write_read s.mem a b v

theorem mem_insert (m : Memory) (a : Nat) (v : Word) (x : Nat × Word) :
    x ∈ m.insert a v ↔ x = (a, v) ∨ x ∈ m := by
  induction m with
  | nil => simp [Memory.insert]
  | cons y m ih =>
    obtain ⟨c, w⟩ := y
    unfold Memory.insert
    split
    · simp
    · simp only [List.mem_cons, ih]; tauto

theorem erase_wf (m : Memory) (a : Nat) (h : m.wf) : (m.erase a).wf :=
  ⟨h.1.sublist List.filter_sublist, fun x hx => h.2 x (List.mem_of_mem_filter hx)⟩

theorem insert_wf (m : Memory) (a : Nat) (v : Word) (h : m.wf) (ha : ∀ x ∈ m, x.1 ≠ a)
    (hv : v ≠ Word.zero) : (m.insert a v).wf := by
  refine ⟨?_, fun x hx => ?_⟩
  · have hp := h.1
    clear h
    induction m with
    | nil => simp [Memory.insert]
    | cons y m ih =>
      obtain ⟨c, w⟩ := y
      have hca : c ≠ a := ha (c, w) (by simp)
      rw [List.pairwise_cons] at hp
      unfold Memory.insert
      split
      · rename_i hlt
        refine List.pairwise_cons.mpr ⟨fun z hz => ?_, List.pairwise_cons.mpr hp⟩
        rcases List.mem_cons.mp hz with rfl | hz
        · exact hlt
        · exact lt_trans hlt (hp.1 z hz)
      · rename_i hnlt
        refine List.pairwise_cons.mpr ⟨fun z hz => ?_, ih (fun x hx => ha x (by simp [hx])) hp.2⟩
        rcases (mem_insert m a v z).mp hz with rfl | hz
        · exact lt_of_le_of_ne (Nat.le_of_not_lt hnlt) hca
        · exact hp.1 z hz
  · rcases (mem_insert m a v x).mp hx with rfl | hx
    · exact hv
    · exact h.2 x hx

/-- A write keeps the canonical form, so equal memories are equal data. -/
theorem write_wf (m : Memory) (a : Nat) (v : Word) (h : m.wf) : (m.write a v).wf := by
  unfold Memory.write
  split
  · exact erase_wf m a h
  · rename_i hv
    exact insert_wf _ _ _ (erase_wf m a h) (erase_not_listed m a) hv

/-- A write lists nothing at an address other than its own that was not listed before. -/
theorem write_listed (m : Memory) (a : Nat) (v : Word) :
    ∀ x ∈ m.write a v, x = (a, v) ∨ x ∈ m := by
  intro x hx
  unfold Memory.write at hx
  split at hx
  · exact .inr (List.mem_of_mem_filter hx)
  · rcases (mem_insert _ _ _ x).mp hx with h | h
    · exact .inl h
    · exact .inr (List.mem_of_mem_filter h)

/-- The writes of a program load keep the canonical form (70_reset_and_hazards.md R243). -/
theorem writeStream_wf (m : Memory) (b : Nat) (ws : List Word) (h : m.wf) :
    (m.writeStream b ws).wf := by
  induction ws generalizing m b with
  | nil => exact h
  | cons w ws ih => exact ih _ _ (write_wf m b w h)

/-- The memory after reset has the canonical form. -/
theorem reset_mem_wf : State.reset.mem.wf := by decide

end MemoryLaws

end Sys2Proof.Machine
end

