-- ==== Sys2Proof/Laws/PerInstr.lean ====
section
/-! SUPPORT. The statements made per instruction: one lemma for each constructor of Instr. -/
namespace Sys2Proof.Laws

/-- An Instruction is determined by its five components (42_codec.md R130): made again from them, it is
itself, the components its mnemonic does not use included (30_encoding.md R67). -/
def Components.Statement (i : Instr) : Prop :=
  Instr.make i.mnemonic i.dest i.src1 i.src2 i.imm = i

theorem Components.add (d a b n : Int) : Components.Statement (.add d a b n) := rfl
theorem Components.addi (d a b n : Int) : Components.Statement (.addi d a b n) := rfl
theorem Components.sub (d a b n : Int) : Components.Statement (.sub d a b n) := rfl
theorem Components.subi (d a b n : Int) : Components.Statement (.subi d a b n) := rfl
theorem Components.ldw (d a b n : Int) : Components.Statement (.ldw d a b n) := rfl
theorem Components.stw (d a b n : Int) : Components.Statement (.stw d a b n) := rfl
theorem Components.jmp (d a b n : Int) : Components.Statement (.jmp d a b n) := rfl
theorem Components.call (d a b n : Int) : Components.Statement (.call d a b n) := rfl
theorem Components.ret (d a b n : Int) : Components.Statement (.ret d a b n) := rfl
theorem Components.brz (d a b n : Int) : Components.Statement (.brz d a b n) := rfl
theorem Components.halt (d a b n : Int) : Components.Statement (.halt d a b n) := rfl

end Sys2Proof.Laws
end

