-- ==== Sys2Proof/Laws/Step.lean ====
section
/-! SUPPORT. What a meaning and a step can do, said once (43_fde_engine.md R151, R154). -/
namespace Sys2Proof.Machine
open Sys2Proof

namespace StepLaws

/-- All that a step can do: nothing, on a HALTED CPU; else a fetch fault, a decode fault, or the meaning
of the decoded instruction. -/
theorem step_cases {s : State} {o : StepOutcome} (h : step s = o) :
    (s.halted = true ∧ o = .next s) ∨
    (s.halted = false ∧ s.fetch = none ∧ o = .next (s.raise .memoryFault)) ∨
    (∃ w e, s.halted = false ∧ s.fetch = some w ∧ decode s.cfg.opmap w = .error e ∧
      o = .next (s.raise .decodeError)) ∨
    (∃ w i, s.halted = false ∧ s.fetch = some w ∧ decode s.cfg.opmap w = .ok i ∧ o = exec i s) := by
  subst h
  unfold step engineStep runningStep decodeAndRun
  cases hh : s.halted with
  | true => simp
  | false =>
    cases hf : s.fetch with
    | none => simp
    | some w =>
      cases hd : decode s.cfg.opmap w with
      | error e => simp [hd]
      | ok i => simp [hd]

/-- A HALTED CPU's step changes nothing. -/
theorem step_of_halted {s : State} (hh : s.halted = true) : step s = .next s := by
  simp [step, engineStep, hh]

/-- A fetch from no valid address is a MemoryFault. -/
theorem step_of_no_fetch {s : State} (hh : s.halted = false) (hf : s.fetch = none) :
    step s = .next (s.raise .memoryFault) := by
  simp [step, engineStep, runningStep, hh, hf]

/-- A Word that does not decode is a DecodeError. -/
theorem step_of_no_decode {s : State} {w : Word} {e : ErrorKind} (hh : s.halted = false)
    (hf : s.fetch = some w) (hd : decode s.cfg.opmap w = .error e) :
    step s = .next (s.raise .decodeError) := by
  simp [step, engineStep, runningStep, decodeAndRun, hh, hf, hd]

/-- A decoded instruction runs: the step is its meaning. -/
theorem step_of_decode {s : State} {w : Word} {i : Instr} (hh : s.halted = false)
    (hf : s.fetch = some w) (hd : decode s.cfg.opmap w = .ok i) : step s = exec i s := by
  simp [step, engineStep, runningStep, decodeAndRun, hh, hf, hd]

/-- All that LDW can do (45_memory_instructions.md R181). -/
theorem execLdw_eq (d a n : Int) (s : State) :
    execLdw d a n s = .next (if s.validAddr (s.ea a n) then
      s.finish d (s.memRead (s.ea a n).toNat) else s.raise .memoryFault) := by
  by_cases h : s.validAddr (s.ea a n) <;> simp [execLdw, State.finish, h]

/-- All that STW can do (45_memory_instructions.md R182). -/
theorem execStw_eq (a b n : Int) (s : State) :
    execStw a b n s = .next (if s.validAddr (s.ea a n) then
      (s.memWrite (s.ea a n).toNat (s.reg b)).advance else s.raise .memoryFault) := by
  by_cases h : s.validAddr (s.ea a n) <;> simp [execStw, h]

/-- All that CALL can do (46_control_instructions.md R192). -/
theorem execCall_eq (a n : Int) (s : State) :
    execCall a n s = .next (if s.depth < s.cfg.stackDepth then
      (s.push (s.pc + 1)).setPc (s.ea a n) else s.raise .stackFault) := by
  by_cases h : s.depth < s.cfg.stackDepth <;> simp [execCall, State.target, h]

/-- All that RET can do (46_control_instructions.md R193). -/
theorem execRet_eq (s : State) :
    execRet s = .next (match s.stack with
      | [] => s.raise .stackFault
      | v :: _ => s.dropTop.setPc v) := by
  unfold execRet
  cases s.stack <;> rfl

/-- All that BRZ can do (46_control_instructions.md R194). -/
theorem execBrz_eq (a n : Int) (s : State) :
    execBrz a n s = .next (if intFromWord (s.reg a) = 0 then s.setPc n else s.advance) := by
  by_cases h : intFromWord (s.reg a) = 0 <;> simp [execBrz, wordIsZero, branchTarget, h]

/-- All that a meaning can do, by what it writes (43_fde_engine.md R154): a register and `pc`, a memory
Word and `pc`, `pc` alone, the call stack and `pc`, the halted flag, or a fault with its cause. -/
theorem exec_cases {i : Instr} {s : State} {o : StepOutcome} (h : exec i s = o) :
    (∃ v, i.mnemonic ∈ [.add, .addi, .sub, .subi, .ldw] ∧ o = .next (s.finish i.dest v)) ∨
    (i.mnemonic = .stw ∧ s.validAddr (s.ea i.src1 i.imm) = true ∧
      o = .next ((s.memWrite (s.ea i.src1 i.imm).toNat (s.reg i.src2)).advance)) ∨
    (i.mnemonic = .jmp ∧ o = .next (s.setPc (s.ea i.src1 i.imm))) ∨
    (i.mnemonic = .brz ∧
      o = .next (if intFromWord (s.reg i.src1) = 0 then s.setPc i.imm else s.advance)) ∨
    (i.mnemonic = .call ∧ s.depth < s.cfg.stackDepth ∧
      o = .next ((s.push (s.pc + 1)).setPc (s.ea i.src1 i.imm))) ∨
    (∃ v vs, i.mnemonic = .ret ∧ s.stack = v :: vs ∧ o = .next (s.dropTop.setPc v)) ∨
    (i.mnemonic = .halt ∧ o = .next s.halt) ∨
    (i.mnemonic ∈ [.ldw, .stw] ∧ s.validAddr (s.ea i.src1 i.imm) = false ∧
      o = .next (s.raise .memoryFault)) ∨
    (i.mnemonic = .call ∧ s.cfg.stackDepth ≤ s.depth ∧ o = .next (s.raise .stackFault)) ∨
    (i.mnemonic = .ret ∧ s.stack = [] ∧ o = .next (s.raise .stackFault)) := by
  subst h
  cases i with
  | add d a b n => exact .inl ⟨_, by simp [Instr.mnemonic], rfl⟩
  | addi d a b n => exact .inl ⟨_, by simp [Instr.mnemonic], rfl⟩
  | sub d a b n => exact .inl ⟨_, by simp [Instr.mnemonic], rfl⟩
  | subi d a b n => exact .inl ⟨_, by simp [Instr.mnemonic], rfl⟩
  | ldw d a b n =>
    simp only [exec, execLdw_eq]
    by_cases hv : s.validAddr (s.ea a n)
    · exact .inl ⟨_, by simp [Instr.mnemonic], by rw [if_pos hv]; rfl⟩
    · simp [Instr.mnemonic, Instr.src1, Instr.imm, hv]
  | stw d a b n =>
    simp only [exec, execStw_eq]
    by_cases hv : s.validAddr (s.ea a n)
    · exact .inr (.inl ⟨rfl, hv, by rw [if_pos hv]; rfl⟩)
    · simp [Instr.mnemonic, Instr.src1, Instr.imm, hv]
  | jmp d a b n => exact .inr (.inr (.inl ⟨rfl, rfl⟩))
  | call d a b n =>
    simp only [exec, execCall_eq]
    by_cases hv : s.depth < s.cfg.stackDepth
    · exact .inr (.inr (.inr (.inr (.inl ⟨rfl, hv, by rw [if_pos hv]; rfl⟩))))
    · simp [Instr.mnemonic, Nat.le_of_not_lt hv, hv]
  | ret d a b n =>
    simp only [exec, execRet_eq]
    cases hs : s.stack with
    | nil => simp [Instr.mnemonic]
    | cons v vs => exact .inr (.inr (.inr (.inr (.inr (.inl ⟨v, vs, rfl, rfl, rfl⟩)))))
  | brz d a b n => exact .inr (.inr (.inr (.inl ⟨rfl, execBrz_eq a n s⟩)))
  | halt d a b n => exact .inr (.inr (.inr (.inr (.inr (.inr (.inl ⟨rfl, rfl⟩))))))

end StepLaws

end Sys2Proof.Machine
end

