-- ==== Sys2Proof/Laws/Run.lean ====
section
/-! SUPPORT. What the host's operations can do, said once (43_fde_engine.md R150, R157,
70_reset_and_hazards.md R243). -/
namespace Sys2Proof.Machine
open Sys2Proof

namespace RunLaws
open StepLaws

/-- No meaning reads the latch: from an empty latch an instruction does the same, and the latch then
holds the record of this instruction's own fault, if it took one (60_exceptions.md R217). Without a
fault, HALT alone sets the halted flag; and HALT takes no fault (46_control_instructions.md R195). -/
theorem exec_from_empty_latch (i : Instr) (s : State) :
    (∃ t, exec i s = .next t ∧ t.fault = s.fault ∧ (t.halted = s.halted ∨ i.mnemonic = .halt) ∧
      exec i { s with fault := none } = .next { t with fault := none }) ∨
    (∃ k, i.mnemonic ≠ .halt ∧ exec i s = .next (s.raise k) ∧
      exec i { s with fault := none } = .next (s.raise k)) := by
  cases i with
  | add d a b n => exact .inl ⟨_, rfl, rfl, .inl rfl, rfl⟩
  | addi d a b n => exact .inl ⟨_, rfl, rfl, .inl rfl, rfl⟩
  | sub d a b n => exact .inl ⟨_, rfl, rfl, .inl rfl, rfl⟩
  | subi d a b n => exact .inl ⟨_, rfl, rfl, .inl rfl, rfl⟩
  | jmp d a b n => exact .inl ⟨_, rfl, rfl, .inl rfl, rfl⟩
  | halt d a b n => exact .inl ⟨_, rfl, rfl, .inr rfl, rfl⟩
  | ldw d a b n =>
    by_cases h : s.validAddr (s.ea a n)
    · exact .inl ⟨_, if_pos h, rfl, .inl rfl, if_pos h⟩
    · exact .inr ⟨_, by simp [Instr.mnemonic], if_neg h, if_neg h⟩
  | stw d a b n =>
    by_cases h : s.validAddr (s.ea a n)
    · exact .inl ⟨_, if_pos h, rfl, .inl rfl, if_pos h⟩
    · exact .inr ⟨_, by simp [Instr.mnemonic], if_neg h, if_neg h⟩
  | call d a b n =>
    by_cases h : s.depth < s.cfg.stackDepth
    · exact .inl ⟨_, if_pos h, rfl, .inl rfl, if_pos h⟩
    · exact .inr ⟨_, by simp [Instr.mnemonic], if_neg h, if_neg h⟩
  | ret d a b n =>
    obtain ⟨c, p, g, m, stk, h, f⟩ := s
    cases stk with
    | nil => exact .inr ⟨.stackFault, by simp [Instr.mnemonic], rfl, rfl⟩
    | cons v vs => exact .inl ⟨_, rfl, rfl, .inl rfl, rfl⟩
  | brz d a b n =>
    by_cases h : wordIsZero (s.reg a) = true
    · exact .inl ⟨_, if_pos h, rfl, .inl rfl, if_pos h⟩
    · exact .inl ⟨_, if_neg h, rfl, .inl rfl, if_neg h⟩

/-- The instruction that a step of this state fetches and decodes, if any, is a HALT. -/
abbrev AtHalt (s : State) : Prop :=
  ∃ w i, s.fetch = some w ∧ decode s.cfg.opmap w = .ok i ∧ i.mnemonic = .halt

/-- All that a step and its report can be: no fault, with the latch left alone, nothing reported, and the
halted flag set by HALT only; or a fault of a RUNNING CPU not at a HALT, taken and reported. -/
theorem report_cases (s : State) :
    (∃ t, step s = .next t ∧ t.fault = s.fault ∧ (t.halted = s.halted ∨ AtHalt s) ∧
      report s = none) ∨
    (∃ k, s.halted = false ∧ ¬ AtHalt s ∧ step s = .next (s.raise k) ∧
      report s = some (s.record k)) := by
  have hr : ∀ t, step { s with fault := none } = .next t → report s = t.fault := fun t h => by
    simp only [report, h]
  rcases step_cases (s := s) rfl with ⟨hh, h⟩ | ⟨hh, hf, h⟩ | ⟨w, e, hh, hf, hd, h⟩ |
      ⟨w, i, hh, hf, hd, h⟩
  · exact .inl ⟨s, h, rfl, .inl rfl, hr _ (step_of_halted hh)⟩
  · exact .inr ⟨_, hh, by simp [AtHalt, hf], h, hr _ (step_of_no_fetch hh hf)⟩
  · exact .inr ⟨_, hh, by simp [AtHalt, hf, hd], h, hr _ (step_of_no_decode hh hf hd)⟩
  · have h0 := step_of_decode (s := { s with fault := none }) hh hf hd
    rcases exec_from_empty_latch i s with ⟨t, h1, h2, h3, h4⟩ | ⟨k, hk, h1, h2⟩
    · exact .inl ⟨t, h.trans h1, h2, h3.imp id fun hm => ⟨w, i, hf, hd, hm⟩, hr _ (h0.trans h4)⟩
    · exact .inr ⟨k, hh, by simp [AtHalt, hf, hd, hk], h.trans h1, hr _ (h0.trans h2)⟩

/-- A program load that fits, with every field it sets (70_reset_and_hazards.md R243). -/
theorem load_of_fits (s : State) (ws : List Word) (base : Int) (h0 : 0 ≤ base)
    (h1 : base + ws.length ≤ (s.cfg.memSize : Int)) :
    load s ws base = .ok { s with mem := s.mem.writeStream base.toNat ws, pc := base, stack := [],
                                  halted := false, fault := none } := by
  unfold load
  rw [if_neg (by omega)]

/-- What a program load lists in memory is an address of the stream, or was listed before. -/
theorem writeStream_listed (m : Memory) (b : Nat) (ws : List Word) :
    ∀ x ∈ m.writeStream b ws, (b ≤ x.1 ∧ x.1 < b + ws.length) ∨ x ∈ m := by
  induction ws generalizing m b with
  | nil => exact fun x hx => .inr hx
  | cons w ws ih =>
    intro x hx
    simp only [List.length_cons]
    rcases ih _ _ x hx with h | h
    · exact .inl (by omega)
    · rcases MemoryLaws.write_listed m b w x h with rfl | h
      · exact .inl ⟨le_refl b, by show b < _; omega⟩
      · exact .inr h

/-- `run` on a HALTED CPU (43_fde_engine.md R157). -/
theorem run_of_halted (n : Nat) (s : State) (h : s.halted = true) : run n s = some (s, none) := by
  cases n <;> simp [run, h]

/-- `run` on a RUNNING CPU: one step, whose report ends the run if it halts the CPU. -/
theorem run_of_running (n : Nat) (s t : State) (h : s.halted = false) (ht : step s = .next t) :
    run (n + 1) s = if t.halted then some (t, report s) else run n t := by
  simp [run, h, ht]

end RunLaws

end Sys2Proof.Machine
end

