-- ==== Sys2Proof/Tests/Slice0.lean ====
section
/-! SUPPORT. The model's own tests. Expected values come from the vectors of 95_test_vectors.md (the
section is named beside each) or from the rule named; the theorems named witness_<Name> show a case
that meets the hypotheses of the statement Obligations.<Name>. -/
namespace Sys2Proof.Tests
open Sys2Proof Sys2Proof.Machine

/-! ## Helpers -/

/-- The trit `-`. -/
abbrev m : Trit := .neg
/-- The trit `0`. -/
abbrev z : Trit := .zero
/-- The trit `+`. -/
abbrev p : Trit := .pos

/-- A Word written as 00_scope.md R7 writes it: its five fields, most significant trit first. -/
def written (opcode dest src1 src2 imm : List Trit) : Word :=
  ext27 (opcode ++ dest ++ src1 ++ src2 ++ imm).reverse

/-- A CPU in the standard configuration with these registers, memory Words and call stack. -/
def cpu (pc : Int) (regs : List (Int × Int)) (mem : List (Nat × Int)) (stack : List Int) : State :=
  let s := regs.foldl (fun s r => s.setReg r.1 (wordOfInt r.2)) State.reset
  { mem.foldl (fun s c => s.memWrite c.1 (wordOfInt c.2)) s with pc := pc, stack := stack }

/-- The state after an outcome, if there is one. -/
def after (o : StepOutcome) : Option State :=
  match o with
  | .next t => some t
  | _ => none

/-- The state after a step; the state itself where there is none. -/
def stepTo (s : State) : State := (after (step s)).getD s

/-- What a test looks at: `pc`, one register, the halted flag and the kind of a latched fault. -/
def look (s : State) (r : Int) : Int × Int × Bool × Option Fault :=
  (s.pc, intFromWord (s.reg r), s.halted, s.fault.map (fun f => f.kind))

/-! ## Decoding, from words written out trit by trit (95_test_vectors.md 2.4) -/

theorem test_decode_add : decode OpMap.default
    (written [z,z,z,z,z,p] [m,z,m] [m,m,z] [m,m,p] [z,z,z,z,z,z,z,z,z,z,z,z]) =
    .ok (.add 3 1 2 0) := by decide
theorem test_decode_addi : decode OpMap.default
    (written [z,z,z,z,p,m] [m,z,m] [m,m,m] [m,m,m] [z,z,z,z,z,z,z,z,z,p,z,z]) =
    .ok (.addi 3 0 0 9) := by decide
theorem test_decode_sub : decode OpMap.default
    (written [z,z,z,z,p,z] [m,z,z] [m,m,z] [m,m,p] [z,z,z,z,z,z,z,z,z,z,z,z]) =
    .ok (.sub 4 1 2 0) := by decide
theorem test_decode_subi : decode OpMap.default
    (written [z,z,z,z,p,p] [m,z,p] [m,z,p] [m,m,m] [z,z,z,z,z,z,z,z,z,z,z,p]) =
    .ok (.subi 5 5 0 1) := by decide
theorem test_decode_ldw : decode OpMap.default
    (written [z,z,z,p,m,m] [m,m,p] [m,m,z] [m,m,m] [z,z,z,z,z,z,z,z,z,p,m,m]) =
    .ok (.ldw 2 1 0 5) := by decide
theorem test_decode_stw : decode OpMap.default
    (written [z,z,z,p,m,z] [m,m,m] [m,m,z] [m,z,m] [z,z,z,z,z,z,z,z,z,p,m,m]) =
    .ok (.stw 0 1 3 5) := by decide
theorem test_decode_jmp : decode OpMap.default
    (written [z,z,z,p,m,p] [m,m,m] [m,p,z] [m,m,m] [z,z,z,z,z,z,z,z,z,z,m,p]) =
    .ok (.jmp 0 7 0 (-2)) := by decide
theorem test_decode_call : decode OpMap.default
    (written [z,z,z,p,z,m] [m,m,m] [m,m,m] [m,m,m] [z,z,z,z,z,z,z,z,p,m,p,m]) =
    .ok (.call 0 0 0 20) := by decide
theorem test_decode_ret : decode OpMap.default
    (written [z,z,z,p,z,z] [m,m,m] [m,m,m] [m,m,m] [z,z,z,z,z,z,z,z,z,z,z,z]) =
    .ok (.ret 0 0 0 0) := by decide
theorem test_decode_brz : decode OpMap.default
    (written [z,z,z,p,z,p] [m,m,m] [m,m,z] [m,m,m] [z,z,z,z,z,z,z,z,p,m,p,m]) =
    .ok (.brz 0 1 0 20) := by decide
theorem test_decode_halt : decode OpMap.default
    (written [z,z,z,p,p,m] [p,p,p] [p,p,p] [p,p,p] [p,p,p,p,p,p,p,p,p,p,p,p]) =
    .ok (.halt 26 26 26 265720) := by decide

/-- The words written out are the integers of 95_test_vectors.md 2.4. -/
theorem test_written_values :
    intFromWord (written [z,z,z,z,z,p] [m,z,m] [m,m,z] [m,m,p] [z,z,z,z,z,z,z,z,z,z,z,z]) =
      6408115578 ∧
    intFromWord (written [z,z,z,p,m,p] [m,m,m] [m,p,z] [m,m,m] [z,z,z,z,z,z,z,z,z,z,m,p]) =
      68093003887 := by decide

/-- Decode failures and boundaries of 95_test_vectors.md 2.4. -/
theorem test_decode_boundaries :
    [0, 1, 5230176601, 120294061835, 125524238436, -10460353203, -16853057001, 3812798742493,
      -3812798742493].map (fun n => decode OpMap.default (wordOfInt n)) =
    List.replicate 9 (.error .decodeError) ∧
    decode OpMap.default (wordOfInt 5230176602) = .ok (.add 0 0 0 (-265720)) := by decide

/-- The table's number for a row is its Word's value (30_encoding.md R82): `match` is the row with every
operand field raw 0. -/
theorem test_table_words :
    [10460353203, 20920706406, 31381059609, 41841412812, 52301766015, 62762119218, 73222472421,
      83682825624, 94143178827, 104603532030, 115063885233].map (decodeTableWord 32) =
    Mnemonic.all.map (fun k => some (Instr.make k 13 13 13 0)) := by decide

/-- The first instruction after reset, placed there, runs: ADDI R3,R0,9 (95_test_vectors.md 2.5). -/
theorem test_fetch_word : look (stepTo (State.reset.withFetchWord 32 16853057001)) 3 =
    (1, 9, false, none) := by decide

/-! ## Well-formedness: an ill-formed term for each check (42_codec.md R130) -/

theorem test_dest_too_big : ¬ (Instr.add 27 0 0 0).WellFormed := by decide
theorem test_dest_negative : ¬ (Instr.add (-1) 0 0 0).WellFormed := by decide
theorem test_src1_out_of_range : ¬ (Instr.add 0 27 0 0).WellFormed ∧
    ¬ (Instr.add 0 (-1) 0 0).WellFormed := by decide
theorem test_src2_out_of_range : ¬ (Instr.halt 0 0 27 0).WellFormed ∧
    ¬ (Instr.halt 0 0 (-1) 0).WellFormed := by decide
theorem test_imm_out_of_range : ¬ (Instr.addi 1 0 0 265721).WellFormed ∧
    ¬ (Instr.addi 1 0 0 (-265721)).WellFormed := by decide
theorem test_map_repeats : ¬ OpMap.wf { OpMap.default with halt := 1 } := by decide
theorem test_map_too_big : ¬ OpMap.wf { OpMap.default with halt := 365 } := by decide
theorem test_config_no_memory : ¬ Config.wf { Config.standard with memSize := 0 } := by decide
theorem test_config_too_much_memory :
    ¬ Config.wf { Config.standard with memSize := 3812798742494 } := by decide

/-- The vector of `encode_program` in 95_test_vectors.md 2.4. -/
theorem test_encode_program : encodeProgram OpMap.default
    [.addi 3 0 0 9, .addi 3 3 0 265721, .add 27 0 0 0, .halt 0 0 0 0] =
    .error (.fieldOverflow, 1) := by decide

/-! ## Converter and adder (95_test_vectors.md 2.1, 2.3) -/

theorem test_trytes : (tryteFromInt 100).map (fun t => t.trits.reverse) =
    .ok [z,z,z,z,p,p,m,z,p] ∧ tryteFromInt 9842 = .error .outOfRange := by decide
theorem test_damaged_literal : (wordFromInt 3812798742).map (fun w => w.trits.reverse) =
    .ok [z,z,z,z,z,z,p,z,p,z,m,m,m,z,p,p,p,z,p,m,p,m,m,p,p,m,z] := by decide
theorem test_add_wraps : intFromWord (addWord (wordOfInt 2541865828329) (wordOfInt 2541865828329)) =
    -2541865828329 := by decide
theorem test_add_wraps_by_one :
    intFromWord (addWord (wordOfInt 1906399371247) (wordOfInt 1906399371247)) = -3812798742493 := by
  decide
theorem test_carry_above : droppedCarry (wordOfInt 2541865828329) (wordOfInt 2541865828329) = .pos := by
  decide +kernel
theorem test_carry_below : droppedCarry (wordOfInt (-3812798742493)) (wordOfInt (-1)) = .neg := by
  decide +kernel

/-! ## One step of each instruction (95_test_vectors.md 2.5 to 2.7) -/

theorem test_add : look (stepTo (cpu 4 [(1, 5), (2, 8)] [(4, 6408115578)] [])) 3 =
    (5, 13, false, none) := by decide
theorem test_add_same_register : look (stepTo (cpu 0 [(1, 21)] [(0, 5632743159)] [])) 1 =
    (1, 42, false, none) := by decide
theorem test_addi_r0 : look (stepTo (cpu 0 [] [(0, 15690795530)] [])) 0 =
    (1, 0, false, none) := by decide
theorem test_addi_wraps : look (stepTo (cpu 0 [(2, 3812798742493)] [(0, 16881754807)] [])) 3 =
    (1, -3812798742493, false, none) := by decide
theorem test_sub : look (stepTo (cpu 0 [(1, 5), (2, 8)] [(0, 27716242473)] [])) 4 =
    (1, -3, false, none) := by decide
theorem test_sub_wraps : look (stepTo (cpu 0 [(1, -3812798742493), (2, 1)] [(0, 27716242473)] [])) 4 =
    (1, 3812798742493, false, none) := by decide
theorem test_subi : look (stepTo (cpu 0 [(5, 10)] [(0, 38620348912)] [])) 5 =
    (1, 9, false, none) := by decide
theorem test_subi_negative : look (stepTo (cpu 0 [] [(0, 38548604369)] [])) 5 =
    (1, 7, false, none) := by decide
theorem test_ldw : look (stepTo (cpu 0 [(1, 95)] [(0, 47861045024), (100, 42)] [])) 2 =
    (1, 42, false, none) := by decide
/-- LDW of its own Word at address 3 (95_test_vectors.md 2.6). -/
theorem test_ldw_itself : look (stepTo (cpu 3 [(1, -2)] [(3, 47861045024)] [])) 2 =
    (4, 47861045024, false, none) := by decide
theorem test_stw : ((stepTo (cpu 0 [(1, 723), (3, 42)] [(0, 57548151572)] [])).memRead 728).trits =
    (wordOfInt 42).trits := by decide
/-- STW outside memory faults and stores nothing (95_test_vectors.md 2.8, F3). -/
theorem test_stw_faults :
    let s := cpu 2 [(1, 724), (3, 42)] [(2, 57548151572)] []
    look (stepTo s) 3 = (2, 42, true, some .memoryFault) ∧ (stepTo s).mem = s.mem := by decide
theorem test_jmp : look (stepTo (cpu 0 [(7, 33)] [(0, 68093003887)] [])) 7 =
    (31, 33, false, none) := by decide
theorem test_jmp_negative : look (stepTo (cpu 0 [] [(0, 67992561539)] [])) 0 =
    (-1, 0, false, none) := by decide
theorem test_call : let t := stepTo (cpu 10 [(7, 30)] [(10, 78553357095)] [11])
    (t.pc, t.stack) = (33, [11, 11]) := by decide
/-- CALL at capacity 3 (95_test_vectors.md 2.8, F10). -/
theorem test_call_full :
    let s := { cpu 0 [] [(0, 78452914743)] [1, 1, 1] with
      cfg := { Config.standard with stackDepth := 3 } }
    report s = some ⟨.stackFault, 0, some (wordOfInt 78452914743)⟩ ∧ (stepTo s).stack = [1, 1, 1] := by
  decide
theorem test_ret : let t := stepTo (cpu 0 [] [(0, 88913267946)] [22, 11])
    (t.pc, t.stack) = (22, [11]) := by decide
theorem test_ret_empty : report (cpu 0 [] [(0, 88913267946)] []) =
    some ⟨.stackFault, 0, some (wordOfInt 88913267946)⟩ := by decide
theorem test_brz_taken : (stepTo (cpu 0 [] [(0, 99387970076)] [])).pc = 20 := by decide
theorem test_brz_not_taken : (stepTo (cpu 0 [(1, -1)] [(0, 99387970076)] [])).pc = 1 := by decide
theorem test_halt : look (stepTo (cpu 5 [] [(5, 109833974352)] [7])) 0 = (5, 0, true, none) := by decide
theorem test_halt_again : let t := stepTo (cpu 5 [] [(5, 109833974352)] [7])
    after (step t) = some t ∧ report t = none := by decide +kernel

/-! ## Faults of the engine, load and listings (95_test_vectors.md 2.8, 2.9; 30_encoding.md R80) -/

/-- A record left in the latch is not the report of a HALT. -/
theorem test_report_of_halt : report { cpu 0 [] [(0, 109833974352)] [] with
    fault := some ⟨.stackFault, 7, none⟩ } = none := by decide
theorem test_fetch_fault : report (cpu (-1) [] [] []) = some ⟨.memoryFault, -1, none⟩ ∧
    report (cpu 729 [] [] []) = some ⟨.memoryFault, 729, none⟩ := by decide
theorem test_unloaded : report State.reset = some ⟨.decodeError, 0, some Word.zero⟩ := by decide
theorem test_load_fits :
    ((load State.reset [wordOfInt 7, wordOfInt 8, wordOfInt 9] 726).toOption.map
      (fun t => (t.pc, intFromWord (t.memRead 728)))) = some (726, 9) := by decide
theorem test_load_refused :
    (match load State.reset [wordOfInt 7, wordOfInt 8, wordOfInt 9] 727 with
      | .ok _ => none | .error k => some k) = some .memoryFault ∧
    (match load State.reset [wordOfInt 7] (-1) with
      | .ok _ => none | .error k => some k) = some .memoryFault := by decide
theorem test_tryte_split : intFromTryte (tryteOfWord (wordOfInt 20000) 0) = 317 ∧
    intFromTryte (tryteOfWord (wordOfInt 20000) 1) = 1 := by decide
theorem test_order : tritsLt (wordOfInt (-13)) (wordOfInt (-5)) = true ∧
    tritsLt (wordOfInt 5) (wordOfInt 0) = false := by decide
theorem test_listed : listed (.halt 13 13 13 7) = .halt 0 0 0 0 := rfl
theorem test_error_codes : [ErrorKind.outOfRange, .fieldOverflow, .decodeError, .memoryFault,
    .stackFault].map errorCode = [1, 2, 3, 4, 5] := rfl

/-! ## Witnesses: cases that meet the statements' hypotheses -/

theorem witness_WordConversionIsBijective : |(3812798742493 : Int)| ≤ 3812798742493 ∧
    |(-3812798742493 : Int)| ≤ 3812798742493 := by decide
theorem witness_WideningAppendsZeroTrits : ([p, m] : List Trit).length ≤ 27 ∧
    (List.replicate 27 p).length ≤ 27 := by decide
theorem witness_AddWrapsModuloThreePow27 : |(-3812798742493 : Int)| ≤ 3812798742493 ∧
    (7625597484987 : Int) ∣ intFromWord (wordOfInt 3812798742493) + intFromWord (wordOfInt 1) -
      (-3812798742493) := by decide
theorem witness_InstructionWordValueIsWeightedSum : |(364 : Int)| ≤ 364 ∧ |(-13 : Int)| ≤ 13 ∧
    |(13 : Int)| ≤ 13 ∧ |(0 : Int)| ≤ 13 ∧ |(-265720 : Int)| ≤ 265720 := by decide
/-- Two different Words that agree on their immediate field. -/
theorem witness_FieldsAreReadFromTheValue : wordOfInt 5 ≠ wordOfInt 531446 ∧ 0 + 12 ≤ 27 ∧
    ∀ i, i < 12 → (wordOfInt 5).trits.getD i .zero = (wordOfInt 531446).trits.getD i .zero := by
  decide
theorem witness_RegisterFieldNamesEveryRegister : regInRange 0 ∧ regInRange 26 := by decide
theorem witness_DecodeIsTotalAndNeverWrong_defined : OpMap.default.wf ∧
    opcodeField (wordOfInt 5230176602) = OpMap.default.raw .add := by decide
theorem witness_DecodeIsTotalAndNeverWrong_undefined : OpMap.default.wf ∧
    ∀ k : Mnemonic, opcodeField (wordOfInt 5230176601) ≠ OpMap.default.raw k :=
  ⟨by decide, fun k => by cases k <;> decide⟩
theorem witness_EncodePacksOrOverflows : OpMap.default.wf ∧
    (Instr.halt 26 0 26 265720).WellFormed ∧ ¬ (Instr.halt 27 0 26 265720).WellFormed := by decide
theorem witness_DecodeEncodeRoundTrip : OpMap.default.wf ∧ (Instr.stw 26 0 13 (-265720)).WellFormed ∧
    decode OpMap.default (wordOfInt 120294061834) = .ok (.halt 26 26 26 265720) := by decide
theorem witness_EncodeProgramReportsFirstFailure :
    (∀ i ∈ [Instr.ret 0 0 0 0, .halt 0 0 0 0], i.WellFormed) ∧
    [Instr.ret 0 0 0 0, .halt 0 0 0 265721][1]? = some (.halt 0 0 0 265721) ∧
    ¬ (Instr.halt 0 0 0 265721).WellFormed ∧ (Instr.ret 0 0 0 0).WellFormed := by decide
theorem witness_DefaultMapDefinedWords_bounds :
    5230176602 ≤ intFromWord (wordOfInt 5230176602) ∧
    intFromWord (wordOfInt 120294061834) ≤ 120294061834 := by decide
theorem witness_RegisterFileReadsBackAndHardZero : regInRange 1 ∧ (1 : Int) ≤ 26 ∧ regInRange 26 := by
  decide
theorem witness_MemoryReadsBackWrites : State.reset.validAddr 0 = true ∧
    State.reset.validAddr 728 = true ∧ State.reset.validAddr 729 = false := by decide
theorem witness_AddResultAndFrame : (Instr.add 26 0 13 265720).WellFormed := by decide
theorem witness_AddiResultAndFrame : (Instr.addi 0 26 0 (-265720)).WellFormed := by decide
theorem witness_SubResultAndFrame : (Instr.sub 1 0 26 0).WellFormed ∧
    (Instr.sub 1 2 2 0).WellFormed := by decide
theorem witness_SubiResultAndFrame : (Instr.subi 26 26 0 265720).WellFormed := by decide
theorem witness_EffectiveAddressWraps : regInRange 0 ∧ immInRange 265720 ∧ immInRange 0 := by decide

/-- A CPU whose R1 is 723: `[R1+5]` is the last valid address and `[R1+6]` the first invalid one. -/
def edge : State := cpu 0 [(1, 723)] [] []

theorem witness_LdwLoadsOrFaults_valid : (Instr.ldw 2 1 0 5).WellFormed ∧
    wrap27 (intFromWord (edge.reg 1) + 5) = 728 ∧ (728 : Int) < edge.cfg.memSize ∧
    0 ≤ wrap27 (intFromWord (edge.reg 1) + (-723)) := by decide
theorem witness_LdwLoadsOrFaults_invalid : (Instr.ldw 0 1 0 6).WellFormed ∧
    (edge.cfg.memSize : Int) ≤ wrap27 (intFromWord (edge.reg 1) + 6) ∧
    wrap27 (intFromWord (edge.reg 1) + (-724)) < 0 := by decide
theorem witness_StwStoresOrFaults : (Instr.stw 0 1 3 5).WellFormed ∧
    0 ≤ edge.ea 1 5 ∧ edge.ea 1 5 < (edge.cfg.memSize : Int) ∧
    (edge.cfg.memSize : Int) ≤ edge.ea 1 6 ∧ edge.ea 1 (-724) < 0 ∧ edge.ea 1 (-723) = 0 := by decide
theorem witness_StoreIsSeenByLaterFetch : 0 ≤ edge.ea 1 5 ∧ edge.ea 1 5 < (edge.cfg.memSize : Int) ∧
    (execStw 1 1 5 edge = .next ((edge.memWrite 728 (edge.reg 1)).advance)) ∧
    ({ edge.memWrite 728 (edge.reg 1) with pc := 728 } : State).mem =
      ((edge.memWrite 728 (edge.reg 1)).advance).mem :=
  ⟨by decide, by decide, rfl, rfl⟩
theorem witness_JmpSetsTarget : (Instr.jmp 0 7 0 (-2)).WellFormed ∧
    (cpu (-1) [] [] []).halted = false ∧ (cpu (-1) [] [] []).pc < 0 := by decide
theorem witness_CallPushesOrFaults_room : (Instr.call 0 0 0 20).WellFormed ∧
    (cpu 0 [] [] (List.replicate 26 1)).depth < Config.standard.stackDepth := by decide
theorem witness_CallPushesOrFaults_full :
    (cpu 0 [] [] (List.replicate 27 1)).cfg.stackDepth ≤ (cpu 0 [] [] (List.replicate 27 1)).depth := by
  decide
theorem witness_RetPopsOrFaults : (Instr.ret 0 0 0 0).WellFormed ∧
    (cpu 0 [] [] [22, 11]).stack = 22 :: [11] ∧ (cpu 0 [] [] []).stack = [] := by decide
theorem witness_BrzBranchesOnZero : (Instr.brz 0 1 0 20).WellFormed ∧
    intFromWord (State.reset.reg 1) = 0 ∧ intFromWord (edge.reg 1) ≠ 0 := by decide
theorem witness_HaltSetsHaltedOnly : (Instr.halt 13 13 13 0).WellFormed := by decide
theorem witness_ReturnResumesAfterCall : State.reset.depth < State.reset.cfg.stackDepth ∧
    (cpu 0 [] [] [1]).stack = (State.reset.push (State.reset.pc + 1)).stack := by decide

/-- A CPU about to run ADDI R3,R0,9 at the last address. -/
def ready : State := cpu 728 [] [(728, 16853057001)] []
/-- A CPU about to run HALT. -/
def ending : State := cpu 0 [] [(0, 109833974352)] []
/-- A CPU about to run LDW R2,[R1+5] at an invalid address. -/
def loading : State := cpu 1 [(1, 724)] [(1, 47861045024)] []
/-- A CPU about to run RET with an empty call stack. -/
def returning : State := cpu 0 [] [(0, 88913267946)] []
/-- A CPU about to run STW [R1+5],R3 at the last address. -/
def storing : State := cpu 0 [(1, 723), (3, 42)] [(0, 57548151572)] []
/-- A CPU about to run CALL 20. -/
def calling : State := cpu 0 [] [(0, 78452914763)] []
/-- A CPU about to run BRZ R1,20. -/
def branching : State := cpu 0 [] [(0, 99387970076)] []
/-- A CPU about to run ADDI R3,R0,9 and then HALT. -/
def twoSteps : State := cpu 0 [] [(0, 16853057001), (1, 109833974352)] []

theorem witness_StepRunsDecodedInstruction : ready.halted = false ∧ 0 ≤ ready.pc ∧
    ready.pc < (ready.cfg.memSize : Int) ∧
    decode ready.cfg.opmap (ready.memRead ready.pc.toNat) = .ok (.addi 3 0 0 9) := by decide
theorem witness_FetchReadsMemoryOrFaults : 0 ≤ ready.pc ∧ ready.pc < (ready.cfg.memSize : Int) ∧
    (cpu (-1) [] [] []).halted = false ∧ (cpu (-1) [] [] []).pc < 0 ∧
    ((cpu 729 [] [] []).cfg.memSize : Int) ≤ (cpu 729 [] [] []).pc := by decide
theorem witness_UndefinedOpcodeFaults : State.reset.halted = false ∧ 0 ≤ State.reset.pc ∧
    State.reset.pc < (State.reset.cfg.memSize : Int) ∧
    ∀ k, opcodeField (State.reset.memRead State.reset.pc.toNat) ≠ State.reset.cfg.opmap.raw k :=
  ⟨rfl, by decide, by decide, fun k => by cases k <;> decide⟩
theorem witness_HaltedStepChangesNothing : (stepTo ending).halted = true := by decide
theorem witness_FaultsArePrecise : step State.reset = .next (stepTo State.reset) ∧
    report State.reset = some ⟨.decodeError, 0, some Word.zero⟩ := ⟨rfl, by decide⟩
theorem witness_FaultKindsHaveTheirCauses :
    (loading.stackOk ∧
      report loading = some ⟨.memoryFault, 1, some (wordOfInt 47861045024)⟩) ∧
    (returning.stackOk ∧
      report returning = some ⟨.stackFault, 0, some (wordOfInt 88913267946)⟩) ∧
    (State.reset.stackOk ∧ report State.reset = some ⟨.decodeError, 0, some Word.zero⟩) := by decide
theorem witness_StepWritesAtMostOnePart :
    (ready.halted = false ∧ step ready = .next (stepTo ready)) ∧
    (storing.halted = false ∧ step storing = .next (stepTo storing)) ∧
    (calling.halted = false ∧ step calling = .next (stepTo calling)) ∧
    (branching.halted = false ∧ step branching = .next (stepTo branching)) ∧
    (ending.halted = false ∧ step ending = .next (stepTo ending)) ∧
    (loading.halted = false ∧ step loading = .next (stepTo loading)) :=
  ⟨⟨rfl, rfl⟩, ⟨rfl, rfl⟩, ⟨rfl, rfl⟩, ⟨rfl, rfl⟩, ⟨rfl, rfl⟩, ⟨rfl, rfl⟩⟩
/-- The store writes the last address, which is its effective address, and no other. -/
theorem witness_StepWritesAtMostOnePart_store : storing.ea 1 5 = 728 ∧
    (stepTo storing).memRead 728 = wordOfInt 42 ∧ storing.memRead 728 = Word.zero ∧
    (stepTo storing).memRead 727 = storing.memRead 727 := by decide
theorem witness_OnlyNamedInstructionsWriteEachPart :
    (exec (.addi 3 0 0 9) ready = .next (stepTo ready) ∧ (stepTo ready).reg 3 ≠ ready.reg 3) ∧
    (exec (.stw 0 1 3 5) storing = .next (stepTo storing) ∧
      (stepTo storing).memRead 728 ≠ storing.memRead 728) ∧
    (exec (.call 0 0 0 20) calling = .next (stepTo calling) ∧
      (stepTo calling).stack ≠ calling.stack) :=
  ⟨⟨rfl, by decide⟩, ⟨rfl, by decide⟩, ⟨rfl, by decide⟩⟩
/-- The halted flag changes by HALT, by LDW at an invalid address and by RET on an empty call stack. -/
theorem witness_OnlyNamedInstructionsWriteEachPart_halted :
    (exec (.halt 0 0 0 0) ending = .next (stepTo ending) ∧ (stepTo ending).halted ≠ ending.halted) ∧
    (exec (.ldw 2 1 0 5) loading = .next (stepTo loading) ∧
      (stepTo loading).halted ≠ loading.halted) ∧
    (exec (.ret 0 0 0 0) returning = .next (stepTo returning) ∧
      (stepTo returning).halted ≠ returning.halted) :=
  ⟨⟨rfl, by decide⟩, ⟨rfl, by decide⟩, ⟨rfl, by decide⟩⟩
theorem witness_HaltedOnlyByHaltOrFaultAndTerminal :
    (ending.halted = false ∧ step ending = .next (stepTo ending) ∧
      (stepTo ending).halted = true) ∧
    (loading.halted = false ∧ step loading = .next (stepTo loading) ∧
      (stepTo loading).halted = true) := ⟨⟨rfl, rfl, by decide⟩, ⟨rfl, rfl, by decide⟩⟩
theorem witness_StepKeepsStateWellFormed : ready.wf ∧ step ready = .next (stepTo ready) :=
  ⟨by decide, rfl⟩
theorem witness_ConstructedStateIsWellFormed : construct Config.standard = some State.reset := by decide
theorem witness_ConstructionZeroesEverything :
    Config.wf { memSize := 1, stackDepth := 0, opmap := OpMap.default } ∧
    Config.wf { memSize := 3812798742493, stackDepth := 27, opmap := OpMap.default } := by decide
theorem witness_UnloadedCpuHaltsWithDecodeError : Config.standard.opmap = OpMap.default ∧
    construct Config.standard = some State.reset := by decide
theorem witness_LoadPlacesProgramOrRefuses : State.reset.wf ∧
    (0 : Int) ≤ 726 ∧ (726 : Int) + [Word.zero, Word.zero, Word.zero].length ≤ State.reset.cfg.memSize ∧
    (729 : Int) + ([] : List Word).length ≤ State.reset.cfg.memSize ∧
    (State.reset.cfg.memSize : Int) < 727 + [Word.zero, Word.zero, Word.zero].length := by decide
theorem witness_RunIteratesStepUntilHalted : run 1 ending = some (stepTo ending, none) ∧
    run 1 loading = some (stepTo loading, report loading) := by decide
/-- Two steps, the second of which is the HALT that ends the run. -/
theorem witness_RunIteratesStepUntilHalted_steps :
    twoSteps.halted = false ∧ Sys2Proof.core.run 2 twoSteps = .next (stepTo (stepTo twoSteps)) ∧
    (stepTo (stepTo twoSteps)).halted = true ∧ (stepTo twoSteps).halted = false ∧
    (stepTo twoSteps).pc = 1 := ⟨rfl, rfl, by decide, by decide, by decide⟩

end Sys2Proof.Tests
end

section
/-! The memory statement of 20_memory.md. -/
namespace Sys2Proof.MemoryProofs
open Sys2Proof Sys2Proof.Machine Sys2Proof.Machine.StateLaws Sys2Proof.Machine.MemoryLaws

/-- The address written gives the Word back (20_memory.md R44). -/
theorem memWrite_memRead_same (s : State) (a : Nat) (v : Word) :
    (s.memWrite a v).memRead a = v := by
  rw [memWrite_memRead, if_pos rfl]

/-- A write is to one address alone (20_memory.md R45). -/
theorem memWrite_memRead_other (s : State) {a x : Nat} (v : Word) (hx : x ≠ a) :
    (s.memWrite a v).memRead x = s.memRead x := by
  rw [memWrite_memRead, if_neg hx]

theorem memWrite_keepsRegs (s : State) (a : Nat) (v : Word) : s.keepsRegs (s.memWrite a v) :=
  fun r _ => memWrite_reg s a v r

theorem memWrite_keepsControl (s : State) (a : Nat) (v : Word) :
    s.keepsControl (s.memWrite a v) :=
  ⟨memWrite_stack s a v, memWrite_halted s a v, memWrite_fault s a v, memWrite_cfg s a v⟩

/-- Settles O27, from what a read gives after a write and the frame of a write. The law holds at every
address, so the bounds check is not used. -/
theorem memoryReadsBackWrites : Obligations.MemoryReadsBackWrites := by
  intro s a v _
  exact ⟨memWrite_memRead_same s a v, fun _ hx => memWrite_memRead_other s v hx,
    memWrite_keepsRegs s a v, memWrite_keepsControl s a v, memWrite_pc s a v⟩

end Sys2Proof.MemoryProofs
end

section
/-! The statements of 40_converter.md on the two conversions (R94 to R97). They are the cases k = 9 and
k = 27 of laws of `trits_k` (R93), which are proved here for every width. -/
namespace Sys2Proof.ConverterProofs
open Sys2Proof Sys2Proof.Machine Sys2Proof.Machine.TritLaws

/-! ## Every width -/

/-- The value of a sequence of width `k` is in range (40_converter.md R92). -/
theorem abs_tritsInt_le {k : Nat} (t : Trits k) : |tritsInt t.trits| ≤ tritsMax k := by
  have hb := tritsInt_bounds t.trits
  rw [t.width] at hb
  exact abs_le.mpr hb

/-- `trits_k(n)` succeeds within range, with the digit loop's sequence (40_converter.md R93). -/
theorem tritsFromInt_of_abs_le {k : Nat} {n : Int} (h : |n| ≤ tritsMax k) :
    tritsFromInt k n = .ok ⟨tritsOfInt k n, tritsOfInt_length k n⟩ :=
  if_pos (abs_le.mp h)

/-- `trits_k(n)` fails out of range, and never wraps (40_converter.md R93). -/
theorem tritsFromInt_of_lt_abs {k : Nat} {n : Int} (h : (tritsMax k : Int) < |n|) :
    tritsFromInt k n = .error .outOfRange :=
  if_neg fun hr => h.not_ge (abs_le.mpr hr)

/-- `trits_k` undoes `int` on every sequence of width `k`. -/
theorem tritsFromInt_tritsInt {k : Nat} (t : Trits k) : tritsFromInt k (tritsInt t.trits) = .ok t := by
  rw [tritsFromInt_of_abs_le (abs_tritsInt_le t)]
  obtain ⟨ts, rfl⟩ := t
  simp only [tritsOfInt_tritsInt]

/-- `int` undoes `trits_k` where it succeeds. -/
theorem exists_tritsFromInt {k : Nat} {n : Int} (h : |n| ≤ tritsMax k) :
    ∃ t, tritsFromInt k n = .ok t ∧ tritsInt t.trits = n :=
  have ⟨hlo, hhi⟩ := abs_le.mp h
  ⟨_, tritsFromInt_of_abs_le h, tritsInt_tritsOfInt_of_range hlo hhi⟩

/-- `trits_k(n)` gives the sequence of value `n`, or `OutOfRange` exactly beyond `(3^k - 1)/2`. -/
theorem tritsFromInt_spec (k : Nat) (n : Int) :
    if |n| ≤ tritsMax k then ∃ t, tritsFromInt k n = .ok t ∧ tritsInt t.trits = n
    else tritsFromInt k n = .error .outOfRange := by
  split
  case isTrue h => exact exists_tritsFromInt h
  case isFalse h => exact tritsFromInt_of_lt_abs (not_le.mp h)

/-! ## The corner cases: a sequence of one repeated trit -/

theorem tritsInt_replicate (k : Nat) (t : Trit) :
    tritsInt (List.replicate k t) = tritValue t * tritsMax k := by
  induction k with
  | zero => simp [tritsInt, tritsMax_zero]
  | succ k ih =>
    rw [List.replicate_succ, tritsInt, ih, tritsMax_succ]
    push_cast
    ring

/-- The extremes and the middle of the range are `k` equal trits (40_converter.md R93, corner cases). -/
theorem tritsFromInt_replicate (k : Nat) (t : Trit) :
    tritsFromInt k (tritValue t * tritsMax k) = .ok ⟨List.replicate k t, List.length_replicate⟩ := by
  rw [← tritsInt_replicate]
  exact tritsFromInt_tritsInt ⟨List.replicate k t, List.length_replicate⟩

/-! ## The widths of a Tryte and of a Word -/

/-- The Tryte's range (10_state.md R21). -/
theorem tritsMax_tryte : (tritsMax 9 : Int) = 9841 := by norm_num [tritsMax]

/-- `WORD_MAX` in figures (90_conflicts.md C1). -/
theorem tritsMax_word : (tritsMax 27 : Int) = 3812798742493 := by norm_num [tritsMax]

theorem tryteFromInt_replicate (t : Trit) :
    tryteFromInt (tritValue t * 9841) = .ok ⟨List.replicate 9 t, List.length_replicate⟩ := by
  rw [← tritsMax_tryte]
  exact tritsFromInt_replicate 9 t

theorem tryteFromInt_of_lt_abs {n : Int} (h : 9841 < |n|) : tryteFromInt n = .error .outOfRange :=
  tritsFromInt_of_lt_abs (by rwa [tritsMax_tryte])

theorem wordFromInt_replicate (t : Trit) :
    wordFromInt (tritValue t * 3812798742493) = .ok ⟨List.replicate 27 t, List.length_replicate⟩ := by
  rw [← tritsMax_word]
  exact tritsFromInt_replicate 27 t

theorem wordFromInt_of_lt_abs {n : Int} (h : 3812798742493 < |n|) :
    wordFromInt n = .error .outOfRange :=
  tritsFromInt_of_lt_abs (by rwa [tritsMax_word])

/-- Success with the right value, or `OutOfRange` exactly beyond ±9841 (40_converter.md R94). -/
theorem tryteFromInt_spec (n : Int) :
    if |n| ≤ 9841 then ∃ t, tryteFromInt n = .ok t ∧ intFromTryte t = n
    else tryteFromInt n = .error .outOfRange := by
  rw [← tritsMax_tryte]
  exact tritsFromInt_spec 9 n

/-- Success with the right value, or `OutOfRange` exactly beyond `WORD_MAX` (40_converter.md R96). -/
theorem wordFromInt_spec (n : Int) :
    if |n| ≤ 3812798742493 then ∃ w, wordFromInt n = .ok w ∧ intFromWord w = n
    else wordFromInt n = .error .outOfRange := by
  rw [← tritsMax_word]
  exact tritsFromInt_spec 27 n

/-! ## The obligations -/

/-- Settles O2: the laws of `trits_k` and `int` at width 27. -/
theorem wordConversionIsBijective : Obligations.WordConversionIsBijective := by
  refine ⟨fun n hn => ?_, tritsFromInt_tritsInt, fun w => ?_⟩
  · exact exists_tritsFromInt (by rwa [tritsMax_word])
  · exact tritsMax_word ▸ abs_tritsInt_le w

/-- Settles O4: the laws of `trits_k` and `int` at width 9; each corner case is nine equal trits, or one
past them. -/
theorem tryteConversionIsBijective : Obligations.TryteConversionIsBijective := by
  refine ⟨tryteFromInt_spec, fun t => ⟨tritsFromInt_tritsInt t, ?_⟩, ?_, ?_, ?_, ?_⟩
  · exact tritsMax_tryte ▸ abs_tritsInt_le t
  · exact congrArg (Except.map _) (tryteFromInt_replicate .pos)
  · exact congrArg (Except.map _) (tryteFromInt_replicate .neg)
  · exact tryteFromInt_of_lt_abs (by decide)
  · exact tryteFromInt_of_lt_abs (by decide)

/-- Settles O3: the law of `trits_k` at width 27; each corner case is 27 equal trits, or one past them. -/
theorem wordFromIntFailsOutOfRange : Obligations.WordFromIntFailsOutOfRange := by
  refine ⟨wordFromInt_spec, ?_, ?_, ?_, ?_⟩
  · exact wordFromInt_replicate .zero
  · exact congrArg (Except.map _) (wordFromInt_replicate .pos)
  · exact congrArg (Except.map _) (wordFromInt_replicate .neg)
  · exact wordFromInt_of_lt_abs (by decide)

end Sys2Proof.ConverterProofs
end

section
/-! The statements of 41_adder_negation.md on the full-adder cell (R111), the chain of cells (R113) and
negation (R115). -/
namespace Sys2Proof.AdderProofs
open Sys2Proof Sys2Proof.Machine Sys2Proof.Machine.TritLaws Sys2Proof.Machine.AdderLaws

/-! ## The full-adder cell -/

/-- A digit and a carry are the two trits of a sequence of width 2, so their weighted sum determines
them. -/
theorem trit_pair_inj {d k d' k' : Trit}
    (h : tritValue d + 3 * tritValue k = tritValue d' + 3 * tritValue k') : (d, k) = (d', k') := by
  have hl : [d, k] = [d', k'] := tritsInt_inj rfl (by simpa [tritsInt] using h)
  simpa using hl

/-- The cell gives the one pair of trits whose weighted sum is the raw sum (41_adder_negation.md R111). -/
theorem fullAdd_eq_iff (a b c d k : Trit) :
    fullAdd a b c = (d, k) ↔
      tritValue d + 3 * tritValue k = tritValue a + tritValue b + tritValue c := by
  constructor
  · intro h
    simpa [h] using fullAdd_sum a b c
  · intro h
    exact trit_pair_inj ((fullAdd_sum a b c).trans h.symm)

/-- The cell's digit is `bal_mod(raw_sum, 3)`. -/
theorem fullAdd_digit (a b c : Trit) :
    tritValue (fullAdd a b c).1 = balMod (tritValue a + tritValue b + tritValue c) 3 := by
  have ⟨hlo, hhi⟩ := tritValue_bounds (fullAdd a b c).1
  have hd : (3 : Int) ∣ tritValue a + tritValue b + tritValue c - tritValue (fullAdd a b c).1 :=
    ⟨tritValue (fullAdd a b c).2, by linear_combination -fullAdd_sum a b c⟩
  exact (balMod_unique (h := 1) rfl hlo hhi hd).symm

/-- The cell's carry is `(raw_sum - digit)/3`. -/
theorem fullAdd_carry (a b c : Trit) :
    tritValue (fullAdd a b c).2 =
      (tritValue a + tritValue b + tritValue c - tritValue (fullAdd a b c).1) / 3 := by
  have := fullAdd_sum a b c
  omega

/-- Cells with one raw sum give one digit and one carry. -/
theorem fullAdd_congr {a b c a' b' c' : Trit}
    (h : tritValue a + tritValue b + tritValue c = tritValue a' + tritValue b' + tritValue c') :
    fullAdd a b c = fullAdd a' b' c' :=
  (fullAdd_eq_iff a b c _ _).mpr ((fullAdd_sum a' b' c').trans h.symm)

/-- Settles O8: the sum law of the cell, and that a weighted sum of two trits determines them. -/
theorem fullAdderCellSplitsRawSum : Obligations.FullAdderCellSplitsRawSum := by
  intro a b c
  exact ⟨fullAdd_eq_iff a b c, fullAdd_digit a b c, fullAdd_carry a b c,
    fullAdd_congr (by ring), fullAdd_congr (by ring)⟩

/-! ## The chain of cells -/

/-- The carry into position `i` of a chain: the carry out of the cells below `i`. -/
def carryAt (c : Trit) (as bs : List Trit) (i : Nat) : Trit :=
  (addChain c (as.take i) (bs.take i)).2

@[simp] theorem carryAt_zero (c : Trit) (as bs : List Trit) : carryAt c as bs 0 = c := rfl

@[simp] theorem carryAt_cons_succ (c a b : Trit) (as bs : List Trit) (i : Nat) :
    carryAt c (a :: as) (b :: bs) (i + 1) = carryAt (fullAdd a b c).2 as bs i := rfl

/-- Past the last position stands the chain's last carry. -/
theorem carryAt_of_length_le {c : Trit} {as bs : List Trit} {i : Nat} (ha : as.length ≤ i)
    (hb : bs.length ≤ i) : carryAt c as bs i = (addChain c as bs).2 := by
  rw [carryAt, List.take_of_length_le ha, List.take_of_length_le hb]

/-- The cell at position `i` takes the carry into `i`, and gives the chain's digit at `i` and the carry
into `i + 1`. -/
theorem fullAdd_carryAt (c : Trit) (as bs : List Trit) (i : Nat) (ha : i < as.length)
    (hb : i < bs.length) :
    fullAdd (as.getD i .zero) (bs.getD i .zero) (carryAt c as bs i) =
      ((addChain c as bs).1.getD i .zero, carryAt c as bs (i + 1)) := by
  induction i generalizing c as bs with
  | zero =>
    obtain ⟨a, as, rfl⟩ := List.exists_cons_of_length_pos ha
    obtain ⟨b, bs, rfl⟩ := List.exists_cons_of_length_pos hb
    simp [addChain]
  | succ i ih =>
    obtain ⟨a, as, rfl⟩ := List.exists_cons_of_length_pos (Nat.zero_lt_of_lt ha)
    obtain ⟨b, bs, rfl⟩ := List.exists_cons_of_length_pos (Nat.zero_lt_of_lt hb)
    simpa [addChain] using
      ih (fullAdd a b c).2 as bs (Nat.lt_of_succ_lt_succ ha) (Nat.lt_of_succ_lt_succ hb)

/-! ## Words from their values modulo 3^27 -/

/-- The digit loop gives the one Word of a value congruent to `n` modulo 3^27. -/
theorem wordOfInt_eq_of_dvd {n : Int} {w : Word} (h : (3 : Int) ^ 27 ∣ n - intFromWord w) :
    wordOfInt n = w :=
  intFromWord_inj ((intFromWord_wordOfInt n).trans (wrap27_eq_of_dvd h))

theorem wordOfInt_dvd (n : Int) : (3 : Int) ^ 27 ∣ n - intFromWord (wordOfInt n) :=
  tritsInt_tritsOfInt_dvd 27 n

/-- The sum is the one Word congruent to the sum of the values (41_adder_negation.md R114). -/
theorem addWord_eq_of_dvd {a b w : Word}
    (h : (3 : Int) ^ 27 ∣ (intFromWord a + intFromWord b) - intFromWord w) : addWord a b = w :=
  (wordOfInt_eq_of_dvd (addWord_dvd a b)).symm.trans (wordOfInt_eq_of_dvd h)

theorem addWord_wordOfInt (m n : Int) :
    addWord (wordOfInt m) (wordOfInt n) = wordOfInt (m + n) := by
  apply addWord_eq_of_dvd
  obtain ⟨x, hx⟩ := wordOfInt_dvd m
  obtain ⟨y, hy⟩ := wordOfInt_dvd n
  obtain ⟨z, hz⟩ := wordOfInt_dvd (m + n)
  exact ⟨z - x - y, by linear_combination hz - hx - hy⟩

/-- Settles O10: the carries are those of the chain's own prefixes. -/
theorem addIsChainOfTwentySevenCells : Obligations.AddIsChainOfTwentySevenCells := by
  refine ⟨fun a b => ⟨carryAt .zero a.trits b.trits, carryAt_zero .., ?_, fun i hi => ?_⟩,
    addWord_wordOfInt 5 8⟩
  · exact carryAt_of_length_le a.width.le b.width.le
  · exact fullAdd_carryAt .zero a.trits b.trits i (hi.trans_eq a.width.symm)
      (hi.trans_eq b.width.symm)

/-! ## Negation -/

/-- The trit at each position is flipped (41_adder_negation.md R115); no other position matters. -/
theorem negateWord_trit (a : Word) (i : Nat) :
    (negateWord a).trits.getD i .zero = negTrit (a.trits.getD i .zero) :=
  List.getD_map a.trits .zero negTrit

/-- Negation has no wrap, at the extremes neither. -/
@[simp] theorem intFromWord_negateWord (a : Word) : intFromWord (negateWord a) = -intFromWord a :=
  tritsInt_map_negTrit a.trits

theorem negateWord_negateWord (a : Word) : negateWord (negateWord a) = a :=
  intFromWord_inj (by simp)

theorem addWord_negateWord (a : Word) : addWord a (negateWord a) = Word.zero :=
  addWord_eq_of_dvd (by simp)

theorem negateWord_zero : negateWord Word.zero = Word.zero :=
  intFromWord_inj (by simp)

theorem negateWord_wordOfInt (n : Int) : negateWord (wordOfInt n) = wordOfInt (-n) := by
  symm
  apply wordOfInt_eq_of_dvd
  obtain ⟨x, hx⟩ := wordOfInt_dvd n
  exact ⟨-x, by rw [intFromWord_negateWord]; linear_combination -hx⟩

/-- Settles O13, from the flip of one trit and the value of a flipped sequence; a Word is determined by
its value. -/
theorem negateFlipsEveryTrit : Obligations.NegateFlipsEveryTrit := by
  refine ⟨fun a => ⟨fun i _ => ?_, intFromWord_negateWord a, negateWord_negateWord a,
    addWord_negateWord a⟩, negateWord_zero, negateWord_wordOfInt _, ?_, negateWord_wordOfInt _⟩
  · rw [negateWord_trit, tritValue_negTrit]
  · exact negateWord_wordOfInt (-3812798742493)

end Sys2Proof.AdderProofs
end

section
/-! The statements of 42_codec.md on `decode` (R131) and `encode` (R133). -/
namespace Sys2Proof.CodecProofs
open Sys2Proof Sys2Proof.Machine Sys2Proof.Machine.TritLaws Sys2Proof.Machine.CodecLaws

/-! ## Ranges -/

/-- The registers are the values of a three-trit field, moved up by 13 (30_encoding.md R64). -/
theorem regInRange_add_thirteen {v : Int} :
    regInRange (v + 13) ↔ -(tritsMax 3 : Int) ≤ v ∧ v ≤ tritsMax 3 := by
  have h3 : tritsMax 3 = 13 := rfl
  rw [h3]
  omega

theorem rawOfReg_range {r : Int} (h : regInRange r) :
    -(tritsMax 3 : Int) ≤ rawOfReg r ∧ rawOfReg r ≤ tritsMax 3 :=
  regInRange_add_thirteen.mp (by rwa [rawOfReg, Int.sub_add_cancel])

theorem defaultMap_wf : OpMap.default.wf := by decide

/-! ## The unpacker -/

/-- What `decode` answers is in range: every field of a Word is (42_codec.md R131). -/
theorem decode_wellFormed {m : OpMap} {w : Word} {i : Instr} (h : decode m w = .ok i) :
    i.WellFormed := by
  obtain ⟨k, -, rfl⟩ := decode_ok h
  have reg (lo : Nat) (hlo : lo + 3 ≤ 27) : regInRange (fieldOf w lo 3 + 13) :=
    regInRange_add_thirteen.mpr (fieldOf_bounds w lo 3 hlo)
  simp only [Instr.WellFormed, make_dest, make_src1, make_src2, make_imm]
  exact ⟨reg 18 (by decide), reg 15 (by decide), reg 12 (by decide),
    fieldOf_bounds w 0 12 (by decide)⟩

/-- `decode` on a defined opcode (42_codec.md R131). -/
theorem decode_of_opcode {m : OpMap} (hm : m.wf) {w : Word} {k : Mnemonic}
    (h : opcodeField w = m.raw k) :
    decode m w = .ok (Instr.make k (destField w + 13) (src1Field w + 13) (src2Field w + 13)
      (immField w)) := by
  simp only [decode, h, mnemonicOf_raw hm, regOfRaw]

/-- `decode` on an undefined opcode (42_codec.md R131), under any map. -/
theorem decode_of_undefined {m : OpMap} {w : Word} (h : ∀ k, opcodeField w ≠ m.raw k) :
    decode m w = .error .decodeError := by
  have hnone : m.mnemonicOf (opcodeField w) = none := mnemonicOf_none.mpr fun k => (h k).symm
  simp only [decode, hnone]

/-- Settles O19: `decode` by its two cases, and the components of what it answers. -/
theorem decodeIsTotalAndNeverWrong : Obligations.DecodeIsTotalAndNeverWrong := by
  refine ⟨fun m hm w => ⟨fun k hk => ?_, decode_of_undefined⟩, by decide, by decide⟩
  have hi := decode_of_opcode hm hk
  exact ⟨_, hi, decode_wellFormed hi, make_mnemonic .., make_dest .., make_src1 .., make_src2 ..,
    make_imm ..⟩

/-! ## The packer -/

/-- The Word of an Instruction's five fields (42_codec.md R133). -/
def packWord (m : OpMap) (i : Instr) : Word :=
  ⟨packTrits (m.raw i.mnemonic) (rawOfReg i.dest) (rawOfReg i.src1) (rawOfReg i.src2) i.imm,
    packTrits_length _ _ _ _ _⟩

/-- The weighted sum of an Instruction's five fields (42_codec.md R133). -/
def weightedSum (m : OpMap) (i : Instr) : Int :=
  i.imm + (i.src2 - 13) * 3 ^ 12 + (i.src1 - 13) * 3 ^ 15 + (i.dest - 13) * 3 ^ 18 +
    m.raw i.mnemonic * 3 ^ 21

theorem encode_of_wellFormed (m : OpMap) {i : Instr} (h : i.WellFormed) :
    encode m i = .ok (packWord m i) := if_pos h

theorem encode_of_not_wellFormed (m : OpMap) {i : Instr} (h : ¬ i.WellFormed) :
    encode m i = .error .fieldOverflow := if_neg h

/-- The value of five packed sequences is the weighted sum of theirs (30_encoding.md R62). -/
theorem tritsInt_packTrits (op d a b n : Int) :
    tritsInt (packTrits op d a b n) =
      tritsInt (tritsOfInt 12 n) + tritsInt (tritsOfInt 3 b) * 3 ^ 12 +
        tritsInt (tritsOfInt 3 a) * 3 ^ 15 + tritsInt (tritsOfInt 3 d) * 3 ^ 18 +
        tritsInt (tritsOfInt 6 op) * 3 ^ 21 := by
  simp only [packTrits, tritsInt_append, tritsOfInt_length]
  ring

/-- Packing an Instruction in range loses nothing: the value is the weighted sum of its fields. -/
theorem intFromWord_packWord {m : OpMap} (hm : m.wf) {i : Instr} (hi : i.WellFormed) :
    intFromWord (packWord m i) = weightedSum m i := by
  obtain ⟨hdest, hsrc1, hsrc2, himm⟩ := hi
  have loop_exact {k : Nat} {n : Int} (h : -(tritsMax k : Int) ≤ n ∧ n ≤ tritsMax k) :
      tritsInt (tritsOfInt k n) = n := tritsInt_tritsOfInt_of_range h.1 h.2
  rw [intFromWord, packWord, tritsInt_packTrits, loop_exact himm,
    loop_exact (rawOfReg_range hsrc2), loop_exact (rawOfReg_range hsrc1),
    loop_exact (rawOfReg_range hdest), loop_exact (raw_range hm i.mnemonic)]
  rfl

/-- The packed Word is the one that the converter makes of the weighted sum. -/
theorem wordFromInt_weightedSum {m : OpMap} (hm : m.wf) {i : Instr} (hi : i.WellFormed) :
    wordFromInt (weightedSum m i) = .ok (packWord m i) := by
  rw [← intFromWord_packWord hm hi]
  exact ConverterProofs.tritsFromInt_tritsInt (packWord m i)

/-- The rule's example (42_codec.md R133), from its weighted sum. -/
theorem encode_addi_example : encode OpMap.default (.addi 3 0 0 9) = wordFromInt 16853057001 := by
  have hi : (Instr.addi 3 0 0 9).WellFormed := by decide
  exact (encode_of_wellFormed _ hi).trans (wordFromInt_weightedSum defaultMap_wf hi).symm

/-- Settles O20: `encode` by its two cases; the packed Word's parts, and its value. -/
theorem encodePacksOrOverflows : Obligations.EncodePacksOrOverflows := by
  refine ⟨fun m i => encode_of_not_wellFormed m, fun m i hm hi => ?_, encode_addi_example,
    fun m => ?_⟩
  · obtain ⟨himm, hsrc2, hsrc1, hdest, hop⟩ := slices_of_pack (w := packWord m i) rfl
    exact ⟨packWord m i, encode_of_wellFormed m hi, himm, hsrc2, hsrc1, hdest, hop,
      wordFromInt_weightedSum hm hi⟩
  · refine ⟨?_, ?_, ?_, ?_, ?_⟩ <;> exact encode_of_not_wellFormed m (by decide)

end Sys2Proof.CodecProofs
end

section
/-! The statements of 44_arith_instructions.md on ADD (R170), ADDI (R171) and SUB (R172). The three
differ in the Word that goes into `dest`; what they leave unchanged is that of their common end. -/
namespace Sys2Proof.ArithProofs
open Sys2Proof Sys2Proof.Machine Sys2Proof.Machine.TritLaws Sys2Proof.Machine.AdderLaws
open Sys2Proof.Machine.StateLaws Sys2Proof.AdderProofs Sys2Proof.CodecProofs

/-! ## The common end of the arithmetic instructions -/

/-- The result is read back from every register but R0. -/
theorem finish_reg_dest {s : State} {d : Int} {v : Word} (hd : regInRange d) (h0 : d ≠ 0) :
    (s.finish d v).reg d = v := by
  obtain ⟨hlo, hhi⟩ := hd
  rw [finish_reg, if_pos ⟨rfl, by omega, hhi⟩]

theorem finish_keepsRegsBut (s : State) (d : Int) (v : Word) : s.keepsRegsBut (s.finish d v) d := by
  intro r _ hr
  rw [finish_reg, if_neg fun h => hr h.1]

/-- The common end writes `dest` and `pc` alone (43_fde_engine.md R155); R0 reads zero also where it is
`dest`. -/
theorem finish_frame (s : State) (d : Int) (v : Word) :
    (s.finish d v).reg 0 = Word.zero ∧ s.keepsRegsBut (s.finish d v) d ∧
      (s.finish d v).pc = s.pc + 1 ∧ s.keepsMem (s.finish d v) ∧
      s.keepsControl (s.finish d v) :=
  ⟨reg_zero _, finish_keepsRegsBut s d v, rfl, fun _ => rfl, rfl, rfl, rfl, rfl⟩

/-! ## The meanings by their result -/

theorem exec_add (d a b n : Int) (s : State) :
    exec (.add d a b n) s = .next (s.finish d (addWord (s.reg a) (s.reg b))) := rfl

theorem exec_addi (d a b n : Int) (s : State) :
    exec (.addi d a b n) s = .next (s.finish d (addWord (s.reg a) (immWord n))) := rfl

theorem exec_sub (d a b n : Int) (s : State) :
    exec (.sub d a b n) s = .next (s.finish d (subtractWord (s.reg a) (s.reg b))) := rfl

/-! ## Values of sums, differences and immediates -/

/-- Addition wraps modulo 3^27 (41_adder_negation.md R114). -/
theorem intFromWord_addWord (a b : Word) :
    intFromWord (addWord a b) = wrap27 (intFromWord a + intFromWord b) :=
  (wrap27_eq_of_dvd (addWord_dvd a b)).symm

/-- Subtraction wraps modulo 3^27 (41_adder_negation.md R116). -/
theorem intFromWord_subtractWord (a b : Word) :
    intFromWord (subtractWord a b) = wrap27 (intFromWord a - intFromWord b) := by
  rw [subtractWord, intFromWord_addWord, intFromWord_negateWord, Int.sub_eq_add_neg]

theorem subtractWord_self (a : Word) : subtractWord a a = Word.zero := addWord_negateWord a

theorem subtractWord_zero_left (b : Word) : subtractWord Word.zero b = negateWord b :=
  addWord_eq_of_dvd (by simp)

/-- An immediate fits a Word (40_converter.md R100). -/
theorem word_range_of_immInRange {n : Int} (h : immInRange n) :
    -(tritsMax 27 : Int) ≤ n ∧ n ≤ tritsMax 27 := by
  have hle : immMax ≤ tritsMax 27 := by decide
  omega

theorem wordFromInt_imm {n : Int} (h : immInRange n) : wordFromInt n = .ok (immWord n) :=
  if_pos (word_range_of_immInRange h)

theorem intFromWord_immWord {n : Int} (h : immInRange n) : intFromWord (immWord n) = n :=
  have ⟨hlo, hhi⟩ := word_range_of_immInRange h
  tritsInt_tritsOfInt_of_range hlo hhi

/-! ## Encodings -/

/-- An Instruction's Word under a map is that of its weighted sum (42_codec.md R133). -/
theorem encode_eq_wordFromInt {m : OpMap} (hm : m.wf) {i : Instr} (hi : i.WellFormed) :
    encode m i = wordFromInt (weightedSum m i) :=
  (encode_of_wellFormed m hi).trans (wordFromInt_weightedSum hm hi).symm

/-! ## The obligations -/

/-- Settles O29: the value of a sum, in the frame of the common end. -/
theorem addResultAndFrame : Obligations.AddResultAndFrame := by
  refine ⟨fun d a b n s hi => ?_, rfl, encode_eq_wordFromInt defaultMap_wf (by decide)⟩
  obtain ⟨(hdest : regInRange d), -⟩ := hi
  refine ⟨_, exec_add d a b n s, fun h0 => ?_, finish_frame s d _⟩
  rw [finish_reg_dest hdest h0]
  exact ⟨rfl, intFromWord_addWord _ _⟩

/-- Settles O30: the value of a sum, where the immediate's Word has the immediate's value. -/
theorem addiResultAndFrame : Obligations.AddiResultAndFrame := by
  refine ⟨fun d a b n s hi => ?_, rfl, encode_addi_example,
    encode_eq_wordFromInt defaultMap_wf (by decide)⟩
  obtain ⟨(hdest : regInRange d), -, -, (himm : immInRange n)⟩ := hi
  refine ⟨_, exec_addi d a b n s, fun h0 => ?_, finish_frame s d _⟩
  rw [finish_reg_dest hdest h0, intFromWord_addWord, intFromWord_immWord himm]
  exact ⟨⟨immWord n, wordFromInt_imm himm, rfl⟩, rfl⟩

/-- Settles O31: the value of a difference; with equal sources it is zero, and with R0 as the minuend the
negation, which does not wrap. -/
theorem subResultAndFrame : Obligations.SubResultAndFrame := by
  refine ⟨fun d a b n s hi => ?_, rfl, encode_eq_wordFromInt defaultMap_wf (by decide)⟩
  obtain ⟨(hdest : regInRange d), -⟩ := hi
  refine ⟨_, exec_sub d a b n s, fun h0 => ?_, finish_frame s d _⟩
  rw [finish_reg_dest hdest h0]
  refine ⟨rfl, intFromWord_subtractWord _ _, ?equalSources, ?minuendR0⟩
  case equalSources =>
    rintro rfl
    exact subtractWord_self _
  case minuendR0 =>
    rintro rfl
    rw [reg_zero, subtractWord_zero_left, intFromWord_negateWord]

end Sys2Proof.ArithProofs
end

section
/-! The statements of 30_encoding.md on the five fields (R62 to R64, R82) and of 42_codec.md on the round
trip (R135) and `encode_program` (R136). Each rests on two facts: a Word is the packing of its fields,
and the fields of a packing are the values packed. -/
namespace Sys2Proof.FieldProofs
open Sys2Proof Sys2Proof.Machine Sys2Proof.Machine.TritLaws Sys2Proof.Machine.CodecLaws
open Sys2Proof.CodecProofs

/-! ## Fields and packing -/

/-- The digit loop gives a field's own trits back from its value. -/
theorem tritsOfInt_fieldOf (w : Word) {lo k : Nat} (h : lo + k ≤ 27) :
    tritsOfInt k (fieldOf w lo k) = slice w lo k := by
  have hloop := tritsOfInt_tritsInt (slice w lo k)
  rwa [slice_length w lo k h] at hloop

/-- A Word is the packing of its fields (30_encoding.md R61). -/
theorem packTrits_fields (w : Word) :
    packTrits (opcodeField w) (destField w) (src1Field w) (src2Field w) (immField w) = w.trits := by
  rw [← slices_append w, packTrits, immField, src2Field, src1Field, destField, opcodeField]
  repeat rw [tritsOfInt_fieldOf w (by decide)]

/-- The value of a field whose trits are the digits of an integer within the field's range. -/
theorem fieldOf_of_slice {w : Word} {lo k : Nat} {n : Int} (h : slice w lo k = tritsOfInt k n)
    (hn : -(tritsMax k : Int) ≤ n ∧ n ≤ tritsMax k) : fieldOf w lo k = n := by
  rw [fieldOf, h, tritsInt_tritsOfInt_of_range hn.1 hn.2]

/-- The fields of a packing are the values packed (42_codec.md R133). -/
theorem fields_of_pack {w : Word} {op d a b n : Int} (h : w.trits = packTrits op d a b n)
    (hop : -(tritsMax 6 : Int) ≤ op ∧ op ≤ tritsMax 6)
    (hd : -(tritsMax 3 : Int) ≤ d ∧ d ≤ tritsMax 3) (ha : -(tritsMax 3 : Int) ≤ a ∧ a ≤ tritsMax 3)
    (hb : -(tritsMax 3 : Int) ≤ b ∧ b ≤ tritsMax 3)
    (hn : -(tritsMax 12 : Int) ≤ n ∧ n ≤ tritsMax 12) :
    opcodeField w = op ∧ destField w = d ∧ src1Field w = a ∧ src2Field w = b ∧ immField w = n := by
  obtain ⟨himm, hsrc2, hsrc1, hdest, hopcode⟩ := slices_of_pack h
  exact ⟨fieldOf_of_slice hopcode hop, fieldOf_of_slice hdest hd, fieldOf_of_slice hsrc1 ha,
    fieldOf_of_slice hsrc2 hb, fieldOf_of_slice himm hn⟩

/-! ## The round trip -/

/-- An Instruction is made again from its components (42_codec.md R130). -/
theorem make_components (i : Instr) : Laws.Components.Statement i := by
  cases i <;> rfl

/-- `decode` undoes the packing of an Instruction in range. -/
theorem decode_packWord {m : OpMap} (hm : m.wf) {i : Instr} (hi : i.WellFormed) :
    decode m (packWord m i) = .ok i := by
  obtain ⟨hdest, hsrc1, hsrc2, himm⟩ := hi
  obtain ⟨fop, fdest, fsrc1, fsrc2, fimm⟩ :=
    fields_of_pack (w := packWord m i) rfl (raw_range hm i.mnemonic) (rawOfReg_range hdest)
      (rawOfReg_range hsrc1) (rawOfReg_range hsrc2) himm
  rw [decode_of_opcode hm fop, fdest, fsrc1, fsrc2, fimm]
  simp only [rawOfReg, Int.sub_add_cancel]
  exact congrArg Except.ok (make_components i)

/-- What a Word decodes to packs to the Word. -/
theorem packWord_of_decode {m : OpMap} {w : Word} {i : Instr} (h : decode m w = .ok i) :
    packWord m i = w := by
  obtain ⟨k, hk, rfl⟩ := decode_ok h
  have htrits := packTrits_fields w
  obtain ⟨ts, hlen⟩ := w
  simpa [packWord, hk, rawOfReg] using htrits

/-- Settles O21: decoding undoes packing and packing undoes decoding; injectivity follows from the
first. -/
theorem decodeEncodeRoundTrip : Obligations.DecodeEncodeRoundTrip := by
  refine fun m hm => ⟨fun i hi => ?_, fun w i h => ?_, fun i j hi hj h => ?_⟩
  · exact ⟨packWord m i, encode_of_wellFormed m hi, decode_packWord hm hi⟩
  · rw [encode_of_wellFormed m (decode_wellFormed h), packWord_of_decode h]
  · have hpack : packWord m i = packWord m j := by
      rw [encode_of_wellFormed m hi, encode_of_wellFormed m hj] at h
      exact Except.ok.inj h
    have hdecode := decode_packWord hm hi
    rw [hpack, decode_packWord hm hj] at hdecode
    exact (Except.ok.inj hdecode).symm

/-! ## The fields and the value -/

/-- A Word's value is the weighted sum of its fields (30_encoding.md R62). -/
theorem intFromWord_eq_weightedSum (w : Word) :
    intFromWord w = immField w + src2Field w * 3 ^ 12 + src1Field w * 3 ^ 15 +
      destField w * 3 ^ 18 + opcodeField w * 3 ^ 21 := by
  have loop (lo k : Nat) (h : lo + k ≤ 27) : tritsInt (tritsOfInt k (fieldOf w lo k)) =
      fieldOf w lo k := by rw [tritsOfInt_fieldOf w h, fieldOf]
  rw [intFromWord, ← packTrits_fields w, tritsInt_packTrits]
  simp only [immField, src2Field, src1Field, destField, opcodeField]
  repeat rw [loop _ _ (by decide)]

/-- A Word is determined by its fields (30_encoding.md R62). -/
theorem word_ext_fields {w v : Word} (hop : opcodeField w = opcodeField v)
    (hd : destField w = destField v) (ha : src1Field w = src1Field v)
    (hb : src2Field w = src2Field v) (hn : immField w = immField v) : w = v :=
  intFromWord_inj (by
    rw [intFromWord_eq_weightedSum, intFromWord_eq_weightedSum, hop, hd, ha, hb, hn])

/-- Settles O16: the fields of a packing are the values packed, and a Word's value is the weighted sum
of its fields. -/
theorem instructionWordValueIsWeightedSum : Obligations.InstructionWordValueIsWeightedSum := by
  refine ⟨intFromWord_eq_weightedSum, fun op d a b n hop hd ha hb hn => ?_,
    fun _ _ => word_ext_fields, by norm_num⟩
  obtain ⟨fop, fdest, fsrc1, fsrc2, fimm⟩ :=
    fields_of_pack (w := ⟨packTrits op d a b n, packTrits_length ..⟩) rfl
      (abs_le.mp hop) (abs_le.mp hd) (abs_le.mp ha) (abs_le.mp hb) (abs_le.mp hn)
  refine ⟨_, fop, fdest, fsrc1, fsrc2, fimm, ?_⟩
  rw [intFromWord_eq_weightedSum, fop, fdest, fsrc1, fsrc2, fimm]

/-- The low `k` digits of a value are the value of the low `k` trits: what stands above weighs a
multiple of `3^k`. -/
theorem balMod_tritsInt_append (as bs : List Trit) :
    balMod (tritsInt as + 3 ^ as.length * tritsInt bs) ((3 ^ as.length : Nat) : Int) =
      tritsInt as := by
  obtain ⟨hlo, hhi⟩ := tritsInt_bounds as
  refine balMod_unique (h := tritsMax as.length) ?_ hlo hhi ⟨tritsInt bs, ?_⟩
  · exact_mod_cast pow_eq as.length
  · push_cast
    ring

/-- The digits above the low `k` are the value of the trits above. -/
theorem balDiv_tritsInt_append (as bs : List Trit) :
    balDiv (tritsInt as + 3 ^ as.length * tritsInt bs) ((3 ^ as.length : Nat) : Int) =
      tritsInt bs := by
  rw [balDiv, balMod_tritsInt_append, add_sub_cancel_left]
  push_cast
  exact Int.mul_ediv_cancel_left _ (by positivity)

/-- A field's value is `field(n, lo, k)` of the Word's value (30_encoding.md R63). -/
theorem fieldOf_eq_intField (w : Word) {lo k : Nat} (h : lo + k ≤ 27) :
    fieldOf w lo k = intField (intFromWord w) lo k := by
  have hw := w.width
  have hlow : (w.trits.take lo).length = lo := by rw [List.length_take]; omega
  have hfield : slice w lo k ++ w.trits.drop (lo + k) = w.trits.drop lo := by
    rw [slice, ← List.drop_drop, List.take_append_drop]
  have hdiv := balDiv_tritsInt_append (w.trits.take lo) (w.trits.drop lo)
  rw [← tritsInt_append, List.take_append_drop, hlow] at hdiv
  have hmod := balMod_tritsInt_append (slice w lo k) (w.trits.drop (lo + k))
  rw [← tritsInt_append, hfield, slice_length w lo k h] at hmod
  rw [intField, intFromWord, hdiv, hmod, fieldOf]

/-- A field's trits are those at its positions. -/
theorem slice_congr {w v : Word} {lo k : Nat} (h : lo + k ≤ 27)
    (hwv : ∀ i, lo ≤ i → i < lo + k → w.trits.getD i .zero = v.trits.getD i .zero) :
    slice w lo k = slice v lo k := by
  have hlen (u : Word) : (slice u lo k).length = k := slice_length u lo k h
  refine List.ext_getElem ((hlen w).trans (hlen v).symm) fun i hi _ => ?_
  have hik : i < k := by rwa [hlen w] at hi
  have get (u : Word) : u.trits.getD (lo + i) .zero = u.trits[lo + i]'(by rw [u.width]; omega) :=
    List.getD_eq_getElem ..
  have hpos := hwv (lo + i) (by omega) (by omega)
  rw [get w, get v] at hpos
  simpa only [slice, List.getElem_take, List.getElem_drop] using hpos

/-- Settles O17: a field is the middle of three parts of a Word, and the digits of the value split as
the trits do. -/
theorem fieldsAreReadFromTheValue : Obligations.FieldsAreReadFromTheValue := by
  refine ⟨fun w => ?_, fun w v lo k hwv h => ?_⟩
  · exact ⟨fieldOf_eq_intField w (by decide), fieldOf_eq_intField w (by decide),
      fieldOf_eq_intField w (by decide), fieldOf_eq_intField w (by decide),
      fieldOf_eq_intField w (by decide)⟩
  · rw [fieldOf, slice_congr h hwv, fieldOf]

/-- Every value of a three-trit field names a register (30_encoding.md R64). -/
theorem regOfRaw_fieldOf_inRange (w : Word) {lo : Nat} (h : lo + 3 ≤ 27) :
    regInRange (regOfRaw (fieldOf w lo 3)) :=
  regInRange_add_thirteen.mpr (fieldOf_bounds w lo 3 h)

/-- Settles O18: the two mappings undo each other, and a register's raw value fits three trits. -/
theorem registerFieldNamesEveryRegister : Obligations.RegisterFieldNamesEveryRegister := by
  refine ⟨fun w => ?_, fun r => ⟨?_, ?_, fun hr => ?_⟩, rfl, rfl⟩
  · exact ⟨regOfRaw_fieldOf_inRange w (by decide), regOfRaw_fieldOf_inRange w (by decide),
      regOfRaw_fieldOf_inRange w (by decide)⟩
  · exact Int.sub_add_cancel r 13
  · exact Int.add_sub_cancel r 13
  · obtain ⟨hlo, hhi⟩ := rawOfReg_range hr
    exact tritsInt_tritsOfInt_of_range hlo hhi

/-! ## Programs -/

/-- A program in range encodes element by element (42_codec.md R136). -/
theorem encodeProgram_of_wellFormed (m : OpMap) (is : List Instr) (h : ∀ i ∈ is, i.WellFormed) :
    encodeProgram m is = .ok (is.map (packWord m)) := by
  induction is with
  | nil => rfl
  | cons i is ih =>
    rw [List.forall_mem_cons] at h
    simp only [encodeProgram, encode_of_wellFormed m h.1, ih h.2, List.map_cons]

/-- The elements before the first failure move its index up by one each (42_codec.md R136). -/
theorem encodeProgram_of_first_failure (m : OpMap) (is : List Instr) (k : Nat) (i : Instr)
    (hi : is[k]? = some i) (hbad : ¬ i.WellFormed)
    (hbefore : ∀ (j : Nat) (i' : Instr), j < k → is[j]? = some i' → i'.WellFormed) :
    encodeProgram m is = .error (.fieldOverflow, k) := by
  induction is generalizing k with
  | nil => simp at hi
  | cons i₀ is ih =>
    cases k with
    | zero =>
      obtain rfl : i₀ = i := by simpa using hi
      simp only [encodeProgram, encode_of_not_wellFormed m hbad]
    | succ k =>
      have hhead : i₀.WellFormed := hbefore 0 i₀ k.succ_pos rfl
      have htail := ih k (by simpa using hi) fun j i' hj hj' =>
        hbefore (j + 1) i' (Nat.succ_lt_succ hj) (by simpa using hj')
      simp only [encodeProgram, encode_of_wellFormed m hhead, htail]

/-- Settles O22: a program in range is encoded by mapping, and one that is not fails at its first
element out of range. -/
theorem encodeProgramReportsFirstFailure : Obligations.EncodeProgramReportsFirstFailure := by
  refine fun m => ⟨fun is h => ?_, encodeProgram_of_first_failure m, rfl⟩
  refine ⟨_, encodeProgram_of_wellFormed m is h, List.length_map .., fun k i w hi hw => ?_⟩
  have hw' : packWord m i = w := by simpa [hi] using hw
  rw [encode_of_wellFormed m (h i (List.mem_of_getElem? hi)), hw']

/-! ## The Words that the default map defines -/

/-- A Word decodes to a mnemonic exactly when its opcode field is that of the mnemonic
(42_codec.md R131). -/
theorem decodes_to_iff {m : OpMap} (hm : m.wf) (w : Word) (k : Mnemonic) :
    (∃ i, decode m w = .ok i ∧ i.mnemonic = k) ↔ opcodeField w = m.raw k := by
  constructor
  · rintro ⟨i, hi, rfl⟩
    obtain ⟨k, hk, rfl⟩ := decode_ok hi
    rw [make_mnemonic, hk]
  · exact fun h => ⟨_, decode_of_opcode hm h, make_mnemonic ..⟩

/-- The opcode field is the weight of `3^21` in a Word's value, the other fields together weighing at
most `(3^21 - 1)/2` (30_encoding.md R82). -/
theorem value_below_opcode_bounds (w : Word) :
    -5230176601 ≤ intFromWord w - opcodeField w * 3 ^ 21 ∧
      intFromWord w - opcodeField w * 3 ^ 21 ≤ 5230176601 := by
  have reg (lo : Nat) (h : lo + 3 ≤ 27) : -13 ≤ fieldOf w lo 3 ∧ fieldOf w lo 3 ≤ 13 :=
    fieldOf_bounds w lo 3 h
  have himm : -265720 ≤ immField w ∧ immField w ≤ 265720 := fieldOf_bounds w 0 12 (by decide)
  have hsrc2 : -13 ≤ src2Field w ∧ src2Field w ≤ 13 := reg 12 (by decide)
  have hsrc1 : -13 ≤ src1Field w ∧ src1Field w ≤ 13 := reg 15 (by decide)
  have hdest : -13 ≤ destField w ∧ destField w ≤ 13 := reg 18 (by decide)
  have hvalue := intFromWord_eq_weightedSum w
  omega

/-- The Words of one raw opcode are an interval (30_encoding.md R82). -/
theorem opcodeField_eq_iff (w : Word) (op : Int) :
    opcodeField w = op ↔ 2 * |intFromWord w - op * 3 ^ 21| ≤ 3 ^ 21 - 1 := by
  have hbelow := value_below_opcode_bounds w
  have habs : 2 * |intFromWord w - op * 3 ^ 21| ≤ 3 ^ 21 - 1 ↔
      -5230176601 ≤ intFromWord w - op * 3 ^ 21 ∧ intFromWord w - op * 3 ^ 21 ≤ 5230176601 := by
    rw [← abs_le]
    omega
  rw [habs]
  omega

/-- The default map's raw opcodes are 1 to 11 (30_encoding.md R66). -/
theorem exists_default_raw_iff (op : Int) :
    (∃ k, OpMap.default.raw k = op) ↔ 1 ≤ op ∧ op ≤ 11 := by
  constructor
  · rintro ⟨k, rfl⟩
    cases k <;> decide
  · rintro ⟨hlo, hhi⟩
    have hlisted : ∃ k ∈ Mnemonic.all, OpMap.default.raw k = op := by
      interval_cases op <;> decide
    exact hlisted.imp fun _ hk => hk.2

/-- Settles O23: a mnemonic's Words are those of its raw opcode, and the eleven intervals meet. -/
theorem defaultMapDefinedWordsAreOneInterval : Obligations.DefaultMapDefinedWordsAreOneInterval := by
  refine ⟨fun w k => (decodes_to_iff defaultMap_wf w k).trans (opcodeField_eq_iff w _), fun w => ?_⟩
  have hbelow := value_below_opcode_bounds w
  calc (∃ i, decode OpMap.default w = .ok i)
      ↔ ∃ k, OpMap.default.raw k = opcodeField w :=
        ⟨fun ⟨i, hi⟩ => ⟨i.mnemonic, ((decodes_to_iff defaultMap_wf w _).mp ⟨i, hi, rfl⟩).symm⟩,
          fun ⟨k, hk⟩ => ⟨_, decode_of_opcode defaultMap_wf hk.symm⟩⟩
    _ ↔ 1 ≤ opcodeField w ∧ opcodeField w ≤ 11 := exists_default_raw_iff _
    _ ↔ 5230176602 ≤ intFromWord w ∧ intFromWord w ≤ 120294061834 := by omega

/-- Settles O24: eleven closed evaluations of the decoder. -/
theorem vectorWordsDecode : Obligations.VectorWordsDecode := by
  unfold Obligations.VectorWordsDecode
  decide

end Sys2Proof.FieldProofs
end

section
/-! What a meaning and a step do, as relations with one named constructor for each way they can end.
They say again what `exec_cases` and `step_cases` of Laws/Step.lean say, so that a proof splits into
named cases. -/
namespace Sys2Proof.EffectProofs
open Sys2Proof Sys2Proof.Machine Sys2Proof.Machine.StateLaws Sys2Proof.Machine.StepLaws

/-! ## The relations -/

/-- Why a meaning takes a fault of a kind (60_exceptions.md R211, R213). -/
inductive FaultCause (i : Instr) (s : State) : Fault → Prop where
  /-- LDW and STW at an address outside memory. -/
  | badAddress (hi : i.mnemonic ∈ [.ldw, .stw]) (ha : s.validAddr (s.ea i.src1 i.imm) = false) :
      FaultCause i s .memoryFault
  /-- CALL at capacity. -/
  | stackFull (hi : i.mnemonic = .call) (hfull : s.cfg.stackDepth ≤ s.depth) :
      FaultCause i s .stackFault
  /-- RET on an empty call stack. -/
  | stackEmpty (hi : i.mnemonic = .ret) (hempty : s.stack = []) : FaultCause i s .stackFault

/-- What a meaning makes of a state, by what it writes (43_fde_engine.md R154). -/
inductive Effect (i : Instr) (s : State) : State → Prop where
  /-- The arithmetic instructions and LDW: the register `dest`, and `pc + 1`. -/
  | result (v : Word) (hi : i.mnemonic ∈ [.add, .addi, .sub, .subi, .ldw]) :
      Effect i s (s.finish i.dest v)
  /-- STW at a valid address. -/
  | store (hi : i.mnemonic = .stw) (ha : s.validAddr (s.ea i.src1 i.imm) = true) :
      Effect i s (s.memWrite (s.ea i.src1 i.imm).toNat (s.reg i.src2)).advance
  /-- JMP. -/
  | jump (hi : i.mnemonic = .jmp) : Effect i s (s.setPc (s.ea i.src1 i.imm))
  /-- BRZ on the zero Word. -/
  | branch (hi : i.mnemonic = .brz) : Effect i s (s.setPc i.imm)
  /-- BRZ on any other Word. -/
  | fallThrough (hi : i.mnemonic = .brz) : Effect i s s.advance
  /-- CALL below capacity. -/
  | call (hi : i.mnemonic = .call) (hroom : s.depth < s.cfg.stackDepth) :
      Effect i s ((s.push (s.pc + 1)).setPc (s.ea i.src1 i.imm))
  /-- RET on a call stack that is not empty. -/
  | ret (v : Int) (vs : List Int) (hi : i.mnemonic = .ret) (hstack : s.stack = v :: vs) :
      Effect i s (s.dropTop.setPc v)
  /-- HALT. -/
  | halt (hi : i.mnemonic = .halt) : Effect i s s.halt
  /-- A fault with its cause (60_exceptions.md R216). -/
  | fault (k : Fault) (hc : FaultCause i s k) : Effect i s (s.raise k)

/-- What a step makes of a state (43_fde_engine.md R151, R156). -/
inductive StepEffect (s : State) : State → Prop where
  /-- A HALTED CPU's step. -/
  | halted (hh : s.halted = true) : StepEffect s s
  /-- A fetch from no valid address. -/
  | noFetch (hh : s.halted = false) (hf : s.fetch = none) : StepEffect s (s.raise .memoryFault)
  /-- A Word that does not decode. -/
  | noDecode (w : Word) (e : ErrorKind) (hh : s.halted = false) (hf : s.fetch = some w)
      (hd : decode s.cfg.opmap w = .error e) : StepEffect s (s.raise .decodeError)
  /-- The meaning of the decoded instruction. -/
  | runs (w : Word) (i : Instr) (t : State) (hh : s.halted = false) (hf : s.fetch = some w)
      (hd : decode s.cfg.opmap w = .ok i) (he : Effect i s t) : StepEffect s t

/-! ## The meanings and the step have these effects -/

/-- Every meaning ends in a next state, with one of the effects (43_fde_engine.md R158). -/
theorem exec_has_effect (i : Instr) (s : State) : ∃ t, exec i s = .next t ∧ Effect i s t := by
  rcases exec_cases (i := i) (s := s) rfl with ⟨v, hi, h⟩ | ⟨hi, ha, h⟩ | ⟨hi, h⟩ | ⟨hi, h⟩ |
    ⟨hi, hroom, h⟩ | ⟨v, vs, hi, hstack, h⟩ | ⟨hi, h⟩ | ⟨hi, ha, h⟩ | ⟨hi, hfull, h⟩ |
    ⟨hi, hempty, h⟩
  · exact ⟨_, h, .result v hi⟩
  · exact ⟨_, h, .store hi ha⟩
  · exact ⟨_, h, .jump hi⟩
  · split at h
    · exact ⟨_, h, .branch hi⟩
    · exact ⟨_, h, .fallThrough hi⟩
  · exact ⟨_, h, .call hi hroom⟩
  · exact ⟨_, h, .ret v vs hi hstack⟩
  · exact ⟨_, h, .halt hi⟩
  · exact ⟨_, h, .fault _ (.badAddress hi ha)⟩
  · exact ⟨_, h, .fault _ (.stackFull hi hfull)⟩
  · exact ⟨_, h, .fault _ (.stackEmpty hi hempty)⟩

theorem next_inj {s t : State} (h : (.next s : StepOutcome) = .next t) : s = t :=
  Host.Outcome.next.inj h

theorem effect_of_exec {i : Instr} {s t : State} (h : exec i s = .next t) : Effect i s t := by
  obtain ⟨u, hu, he⟩ := exec_has_effect i s
  rwa [← next_inj (hu.symm.trans h)]

/-- Every step ends in a next state, with one of the effects (43_fde_engine.md R158). -/
theorem step_has_effect (s : State) : ∃ t, step s = .next t ∧ StepEffect s t := by
  rcases step_cases (s := s) rfl with ⟨hh, h⟩ | ⟨hh, hf, h⟩ | ⟨w, e, hh, hf, hd, h⟩ |
    ⟨w, i, hh, hf, hd, h⟩
  · exact ⟨_, h, .halted hh⟩
  · exact ⟨_, h, .noFetch hh hf⟩
  · exact ⟨_, h, .noDecode w e hh hf hd⟩
  · obtain ⟨t, ht, he⟩ := exec_has_effect i s
    exact ⟨t, h.trans ht, .runs w i t hh hf hd he⟩

theorem stepEffect_of_step {s t : State} (h : step s = .next t) : StepEffect s t := by
  obtain ⟨u, hu, he⟩ := step_has_effect s
  rwa [← next_inj (hu.symm.trans h)]

/-! ## The parameters and the latch -/

/-- No meaning writes the parameters (10_state.md R35). -/
theorem Effect.cfg_eq {i : Instr} {s t : State} (h : Effect i s t) : t.cfg = s.cfg := by
  cases h <;> rfl

/-- No step writes the parameters (10_state.md R35). -/
theorem StepEffect.cfg_eq {s t : State} (h : StepEffect s t) : t.cfg = s.cfg := by
  cases h with
  | halted hh => rfl
  | noFetch hh hf => rfl
  | noDecode w e hh hf hd => rfl
  | runs w i t hh hf hd he => exact he.cfg_eq

/-! ## Taking a fault -/

/-- Taking a fault is what the statements call a fault (60_exceptions.md R216, R217). -/
theorem faultsTo_raise (s : State) (k : Fault) : s.faultsTo (s.raise k) k :=
  ⟨rfl, rfl, rfl, fun _ _ => rfl, fun _ => rfl, rfl, rfl⟩

end Sys2Proof.EffectProofs
end

section
/-! The state invariant (10_state.md R29, R31, R33, R35, 60_exceptions.md R216, R217): at construction,
through every step, and through a program load. -/
namespace Sys2Proof.InvariantProofs
open Sys2Proof Sys2Proof.Machine Sys2Proof.Machine.StateLaws Sys2Proof.Machine.MemoryLaws
open Sys2Proof.Machine.RunLaws Sys2Proof.Machine.AdderLaws Sys2Proof.Machine.StepLaws
open Sys2Proof.EffectProofs Sys2Proof.CodecProofs Sys2Proof.ArithProofs

/-! ## The parts of the invariant -/

/-- With the latch empty, nothing is asked of it. -/
theorem latchOk_of_empty {s : State} (h : s.fault = none) : s.latchOk := by
  simp [State.latchOk, h]

/-- The latch of a RUNNING CPU is empty. -/
theorem fault_of_running {s : State} (h : s.latchOk) (hh : s.halted = false) : s.fault = none := by
  cases hf : s.fault with
  | none => rfl
  | some r =>
    obtain ⟨htrue, -⟩ := h r hf
    rw [hh] at htrue
    cases htrue

/-- Taking a fault latches the record that the invariant asks for (60_exceptions.md R217). -/
theorem raise_wf {s : State} (h : s.wf) (k : Fault) : (s.raise k).wf := by
  obtain ⟨hcfg, hpc, hmem, hstack, -⟩ := h
  refine ⟨hcfg, hpc, hmem, hstack, fun r hr => ?_⟩
  obtain rfl : s.record k = r := by simpa using hr
  exact ⟨rfl, rfl, rfl⟩

/-- A write to a valid address keeps the memory in order (20_memory.md R45). -/
theorem memOk_write {s : State} (h : s.memOk) {a : Nat} (ha : a < s.cfg.memSize) (v : Word) :
    (s.memWrite a v).memOk := by
  refine ⟨write_wf s.mem a v h.1, fun x hx => ?_⟩
  rcases write_listed s.mem a v x hx with rfl | hx
  · exact ha
  · exact h.2 x hx

/-- The instruction after a fetched one is at an address from 1 to `MEM_SIZE`. -/
theorem next_pc_bounds {s : State} {w : Word} (hf : s.fetch = some w) :
    1 ≤ s.pc + 1 ∧ s.pc + 1 ≤ (s.cfg.memSize : Int) := by
  obtain ⟨hvalid, -⟩ := (fetch_eq_some s w).mp hf
  obtain ⟨hlo, hhi⟩ := (validAddr_iff s s.pc).mp hvalid
  omega

/-- An address from 1 to `MEM_SIZE` fits a Word (00_scope.md R6). -/
theorem word_range_of_le_memSize {c : Config} (hc : c.wf) {v : Int}
    (hv : 0 ≤ v ∧ v ≤ (c.memSize : Int)) : -(wordMax : Int) ≤ v ∧ v ≤ wordMax := by
  obtain ⟨-, hsize, -⟩ := hc
  omega

/-! ## Every step -/

/-- The meaning of an instruction in range, fetched on a RUNNING CPU, keeps the invariant. -/
theorem effect_keeps_wf {s t : State} {w : Word} {i : Instr} (hs : s.wf) (hh : s.halted = false)
    (hf : s.fetch = some w) (hi : i.WellFormed) (he : Effect i s t) : t.wf := by
  have hwf := hs
  obtain ⟨hcfg, hpc, hmem, ⟨hdepth, hentries⟩, hlatch⟩ := hs
  have hnext := next_pc_bounds hf
  have hnextpc := word_range_of_le_memSize hcfg ⟨by omega, hnext.2⟩
  have hempty : s.fault = none := fault_of_running hlatch hh
  cases he with
  | result v hm => exact ⟨hcfg, hnextpc, hmem, ⟨hdepth, hentries⟩, latchOk_of_empty hempty⟩
  | store hm ha =>
    obtain ⟨halo, hahi⟩ := (validAddr_iff s _).mp ha
    exact ⟨hcfg, hnextpc, memOk_write hmem (by omega) _, ⟨hdepth, hentries⟩,
      latchOk_of_empty hempty⟩
  | jump hm => exact ⟨hcfg, ea_bounds s _ _, hmem, ⟨hdepth, hentries⟩, latchOk_of_empty hempty⟩
  | branch hm =>
    obtain ⟨-, -, -, himm⟩ := hi
    exact ⟨hcfg, word_range_of_immInRange himm, hmem, ⟨hdepth, hentries⟩, latchOk_of_empty hempty⟩
  | fallThrough hm => exact ⟨hcfg, hnextpc, hmem, ⟨hdepth, hentries⟩, latchOk_of_empty hempty⟩
  | call hm hroom =>
    exact ⟨hcfg, ea_bounds s _ _, hmem, ⟨hroom, List.forall_mem_cons.mpr ⟨hnext, hentries⟩⟩,
      latchOk_of_empty hempty⟩
  | ret v vs hm hstack =>
    rw [hstack, List.forall_mem_cons] at hentries
    obtain ⟨⟨hvlo, hvhi⟩, hrest⟩ := hentries
    rw [State.depth, hstack] at hdepth
    have htail : (s.dropTop.setPc v).stackOk := by
      simp only [State.stackOk, State.depth, setPc_stack, setPc_cfg, dropTop_stack, dropTop_cfg,
        hstack, List.tail_cons]
      exact ⟨Nat.le_of_succ_le hdepth, hrest⟩
    have hvpc := word_range_of_le_memSize hcfg (v := v) ⟨by omega, hvhi⟩
    exact ⟨hcfg, hvpc, hmem, htail, latchOk_of_empty hempty⟩
  | halt hm => exact ⟨hcfg, hpc, hmem, ⟨hdepth, hentries⟩, latchOk_of_empty hempty⟩
  | fault k hc => exact raise_wf hwf k

/-- Settles O53, by what a step can do: nothing, a fault, or the meaning of an instruction in range. -/
theorem stepKeepsStateWellFormed : Obligations.StepKeepsStateWellFormed := by
  intro s t hs hstep
  have heffect := stepEffect_of_step hstep
  refine ⟨?_, heffect.cfg_eq⟩
  cases heffect with
  | halted hh => exact hs
  | noFetch hh hf => exact raise_wf hs _
  | noDecode w e hh hf hd => exact raise_wf hs _
  | runs w i t hh hf hd he => exact effect_keeps_wf hs hh hf (decode_wellFormed hd) he

/-! ## Construction -/

/-- Construction gives the fresh CPU, for parameters within 00_scope.md R6 alone. -/
theorem construct_eq_some_iff {c : Config} {s : State} :
    construct c = some s ↔ c.wf ∧ State.fresh c = s := by
  simp only [construct, Option.ite_none_right_eq_some, Option.some.injEq]

theorem fresh_wf {c : Config} (hc : c.wf) : (State.fresh c).wf :=
  ⟨hc, word_range_of_le_memSize hc ⟨le_rfl, Int.natCast_nonneg _⟩,
    ⟨⟨List.Pairwise.nil, List.forall_mem_nil _⟩, List.forall_mem_nil _⟩,
    ⟨Nat.zero_le _, List.forall_mem_nil _⟩, latchOk_of_empty rfl⟩

theorem standard_wf : Config.standard.wf := by decide

/-- Settles O54: both are fresh CPUs. -/
theorem constructedStateIsWellFormed : Obligations.ConstructedStateIsWellFormed := by
  refine ⟨fresh_wf standard_wf, fun c s h => ?_⟩
  obtain ⟨hc, rfl⟩ := construct_eq_some_iff.mp h
  exact fresh_wf hc

/-- Every register of a fresh CPU reads the zero Word (10_state.md R36). -/
theorem fresh_reg (c : Config) {r : Int} (hr : regInRange r) :
    (State.fresh c).reg r = Word.zero := by
  obtain ⟨hlo, hhi⟩ := hr
  by_cases h0 : r ≤ 0
  · exact reg_of_le_zero _ r h0
  · have hplace : r.toNat - 1 < 26 := by omega
    simp [State.reg, State.fresh, h0, hplace]

/-- Settles O55: the fresh CPU, field by field. -/
theorem constructionZeroesEverything : Obligations.ConstructionZeroesEverything := by
  refine ⟨fun c hc => ?_, construct_eq_some_iff.mpr ⟨standard_wf, rfl⟩⟩
  exact ⟨_, construct_eq_some_iff.mpr ⟨hc, rfl⟩, rfl, rfl, fun _ => fresh_reg c, fun _ => rfl, rfl,
    rfl, rfl⟩

/-- A fresh CPU fetches the zero Word from address 0. -/
theorem fresh_fetch {c : Config} (hc : c.wf) : (State.fresh c).fetch = some Word.zero := by
  obtain ⟨hsize, -⟩ := hc
  refine (fetch_eq_some _ _).mpr ⟨(validAddr_iff _ _).mpr ⟨le_rfl, ?_⟩, rfl⟩
  show (0 : Int) < c.memSize
  omega

/-- The zero Word is undefined under the default map (30_encoding.md R77). -/
theorem decode_default_zero : decode OpMap.default Word.zero = .error .decodeError :=
  decode_of_undefined fun k => by cases k <;> decide

/-- Settles O56: the zero Word is fetched and does not decode. The latch of a fresh CPU is empty, so its
report is what the step latches. -/
theorem unloadedCpuHaltsWithDecodeError : Obligations.UnloadedCpuHaltsWithDecodeError := by
  intro c s hmap h
  obtain ⟨hc, rfl⟩ := construct_eq_some_iff.mp h
  have hfetch := fresh_fetch hc
  have hdecode : decode (State.fresh c).cfg.opmap Word.zero = .error .decodeError := by
    rw [State.fresh, hmap]
    exact decode_default_zero
  have hstep := step_of_no_decode rfl hfetch hdecode
  refine ⟨_, hstep, faultsTo_raise _ _, ?_⟩
  have hreport : report (State.fresh c) = ((State.fresh c).raise .decodeError).fault := by
    simp only [report, show { State.fresh c with fault := none } = State.fresh c from rfl, hstep]
  rw [hreport, raise_fault, State.record, hfetch]
  rfl

/-! ## Program load -/

/-- A program load leaves every address outside the stream alone (70_reset_and_hazards.md R243). -/
theorem writeStream_read_outside (m : Memory) (b : Nat) (ws : List Word) (x : Nat)
    (hx : x < b ∨ b + ws.length ≤ x) : (m.writeStream b ws).read x = m.read x := by
  induction ws generalizing m b with
  | nil => rfl
  | cons w ws ih =>
    rw [List.length_cons] at hx
    rw [Memory.writeStream, ih _ _ (by omega), write_read, if_neg (by omega)]

/-- A program load puts the stream's element `k` at address `base + k`
(70_reset_and_hazards.md R243). -/
theorem writeStream_read_inside (m : Memory) (b : Nat) (ws : List Word) (k : Nat) (w : Word)
    (hw : ws[k]? = some w) : (m.writeStream b ws).read (b + k) = w := by
  induction ws generalizing m b k with
  | nil => simp at hw
  | cons w₀ ws ih =>
    rw [Memory.writeStream]
    cases k with
    | zero =>
      obtain rfl : w₀ = w := by simpa using hw
      rw [writeStream_read_outside _ _ _ _ (by omega), write_read, if_pos (by omega)]
    | succ k =>
      rw [show b + (k + 1) = b + 1 + k by omega]
      exact ih _ _ k (by simpa using hw)

/-- The stream stays below `MEM_SIZE` where it fits. -/
theorem memOk_writeStream {s : State} (h : s.memOk) {b : Nat} {ws : List Word}
    (hfits : b + ws.length ≤ s.cfg.memSize) :
    (s.mem.writeStream b ws).wf ∧ ∀ x ∈ s.mem.writeStream b ws, x.1 < s.cfg.memSize := by
  obtain ⟨hwf, hbelow⟩ := h
  refine ⟨writeStream_wf s.mem b ws hwf, fun x hx => ?_⟩
  rcases writeStream_listed s.mem b ws x hx with ⟨-, hx⟩ | hx
  · exact hx.trans_le hfits
  · exact hbelow x hx

/-- Settles O57: what the load's writes read back, and the fields that it sets. -/
theorem loadPlacesProgramOrRefuses : Obligations.LoadPlacesProgramOrRefuses := by
  refine fun s ws base => ⟨fun h0 hfits => ?_, fun h => if_pos h⟩
  refine ⟨_, load_of_fits s ws base h0 hfits, fun k w hw => ?_, fun x hx => ?_, rfl, rfl, rfl,
    fun _ _ => rfl, rfl, rfl, fun hs => ?_⟩
  · exact writeStream_read_inside s.mem base.toNat ws k w hw
  · exact writeStream_read_outside s.mem base.toNat ws x (by omega)
  · obtain ⟨hcfg, -, hmem, -, -⟩ := hs
    have hpc := word_range_of_le_memSize hcfg (v := base) ⟨h0, by omega⟩
    exact ⟨hcfg, hpc, memOk_writeStream hmem (by omega), ⟨Nat.zero_le _, List.forall_mem_nil _⟩,
      latchOk_of_empty rfl⟩

end Sys2Proof.InvariantProofs
end

section
/-! The statements of 40_converter.md on sequences of any width (R92, R98, R99), and of 10_state.md on
the Trytes of a Word (R24). -/
namespace Sys2Proof.SequenceProofs
open Sys2Proof Sys2Proof.Machine Sys2Proof.Machine.TritLaws Sys2Proof.ConverterProofs
open Sys2Proof.AdderProofs

/-! ## The place-value sum and its bound -/

/-- Horner's form is the place-value sum (40_converter.md R92). -/
theorem tritsInt_eq_sum (ts : List Trit) :
    tritsInt ts = ((List.range ts.length).map
      (fun i => tritValue (ts.getD i .zero) * 3 ^ i)).sum := by
  induction ts with
  | nil => rfl
  | cons t ts ih =>
    rw [tritsInt, ih, List.length_cons, List.range_succ_eq_map, List.map_cons, List.sum_cons,
      List.map_map, ← List.sum_map_mul_left]
    simp only [List.getD_cons_zero, pow_zero, mul_one, Function.comp_def, List.getD_cons_succ,
      pow_succ]
    congr 3
    funext i
    ring

/-- A value that `k` equal trits have is that of no other sequence of width `k`. -/
theorem tritsInt_eq_extreme_iff (ts : List Trit) (t : Trit) :
    tritsInt ts = tritValue t * tritsMax ts.length ↔ ∀ x ∈ ts, x = t := by
  rw [← tritsInt_replicate]
  constructor
  · intro h
    exact (List.eq_replicate_iff.mp (tritsInt_inj List.length_replicate.symm h)).2
  · intro h
    rw [← List.eq_replicate_iff.mpr ⟨rfl, h⟩]

/-- Settles O1: the sum by recursion on the sequence; a bound is reached by equal trits alone. -/
theorem sequenceValueIsPlaceValueSum : Obligations.SequenceValueIsPlaceValueSum := by
  refine ⟨fun ts => ?_, rfl⟩
  have hpow := pow_eq ts.length
  obtain ⟨hlo, hhi⟩ := tritsInt_bounds ts
  have hpos := tritsInt_eq_extreme_iff ts .pos
  have hneg := tritsInt_eq_extreme_iff ts .neg
  simp only [tritValue] at hpos hneg
  refine ⟨tritsInt_eq_sum ts, ?_, ?_, ?_⟩
  · have habs : |tritsInt ts| ≤ tritsMax ts.length := abs_le.mpr ⟨hlo, hhi⟩
    omega
  · rw [← hpos]
    omega
  · rw [← hneg]
    omega

/-! ## Widening -/

theorem ext27_trits {ts : List Trit} (h : ts.length ≤ 27) :
    (ext27 ts).trits = ts ++ List.replicate (27 - ts.length) .zero := by
  simp only [ext27, List.take_of_length_le h]

/-- Zero trits above a sequence weigh nothing (40_converter.md R98). -/
theorem intFromWord_ext27 {ts : List Trit} (h : ts.length ≤ 27) :
    intFromWord (ext27 ts) = tritsInt ts := by
  rw [intFromWord, ext27_trits h, tritsInt_append, tritsInt_replicate_zero, mul_zero, add_zero]

/-- The digit loop undoes `int` on Words. -/
theorem wordOfInt_intFromWord (w : Word) : wordOfInt (intFromWord w) = w :=
  wordOfInt_eq_of_dvd (by simp)

/-- Settles O5: the widened sequence is the one Word of its value. -/
theorem wideningAppendsZeroTrits : Obligations.WideningAppendsZeroTrits := by
  refine ⟨fun ts h => ⟨?_, ext27_trits h⟩, fun w => ?_⟩
  · rw [← intFromWord_ext27 h]
    exact tritsFromInt_tritsInt (ext27 ts)
  · have hlen : (slice w 0 12).length ≤ 27 := by
      rw [CodecLaws.slice_length w 0 12 (by decide)]
      decide
    rw [immWord, immField, fieldOf, ← intFromWord_ext27 hlen, wordOfInt_intFromWord]

/-! ## Order -/

/-- The most significant position at which two sequences of one width differ exists and has the lower
trit in the first (40_converter.md R99). -/
def LowerAtMostSignificant (as bs : List Trit) : Prop :=
  ∃ i, i < as.length ∧ tritValue (as.getD i .zero) < tritValue (bs.getD i .zero) ∧
    ∀ j, i < j → j < as.length → as.getD j .zero = bs.getD j .zero

/-- Positions above the lowest decide first. -/
theorem lowerAtMostSignificant_cons {as bs : List Trit} (hl : as.length = bs.length) (a b : Trit) :
    LowerAtMostSignificant (a :: as) (b :: bs) ↔
      LowerAtMostSignificant as bs ∨ as = bs ∧ tritValue a < tritValue b := by
  constructor
  · rintro ⟨i, hi, hlt, habove⟩
    cases i with
    | zero =>
      refine .inr ⟨List.ext_getElem hl fun j ha hb => ?_, hlt⟩
      simpa [ha, hb] using habove (j + 1) j.succ_pos (Nat.succ_lt_succ ha)
    | succ i =>
      exact .inl ⟨i, Nat.lt_of_succ_lt_succ hi, by simpa using hlt, fun j hij hj => by
        simpa using habove (j + 1) (Nat.succ_lt_succ hij) (Nat.succ_lt_succ hj)⟩
  · rintro (⟨i, hi, hlt, habove⟩ | ⟨rfl, hlt⟩)
    · refine ⟨i + 1, Nat.succ_lt_succ hi, by simpa using hlt, fun j hij hj => ?_⟩
      obtain ⟨j, rfl⟩ := Nat.exists_eq_succ_of_ne_zero (Nat.ne_zero_of_lt hij)
      simpa using habove j (Nat.lt_of_succ_lt_succ hij) (Nat.lt_of_succ_lt_succ hj)
    · refine ⟨0, Nat.succ_pos _, by simpa using hlt, fun j hij _ => ?_⟩
      obtain ⟨j, rfl⟩ := Nat.exists_eq_succ_of_ne_zero hij.ne'
      simp

/-- The lowest trit decides where the values above it are equal (40_converter.md R99). -/
theorem tritsInt_cons_lt_iff (a b : Trit) (as bs : List Trit) :
    tritsInt (a :: as) < tritsInt (b :: bs) ↔
      tritsInt as < tritsInt bs ∨ tritsInt as = tritsInt bs ∧ tritValue a < tritValue b := by
  have ha := tritValue_bounds a
  have hb := tritValue_bounds b
  simp only [tritsInt]
  omega

/-- The order of the values is decided by the most significant difference (40_converter.md R99). -/
theorem tritsInt_lt_iff {as bs : List Trit} (hl : as.length = bs.length) :
    tritsInt as < tritsInt bs ↔ LowerAtMostSignificant as bs := by
  induction as generalizing bs with
  | nil =>
    obtain rfl : bs = [] := List.eq_nil_of_length_eq_zero hl.symm
    simp [LowerAtMostSignificant]
  | cons a as ih =>
    cases bs with
    | nil => simp at hl
    | cons b bs =>
      have hl' : as.length = bs.length := Nat.succ.inj hl
      have heq : tritsInt as = tritsInt bs ↔ as = bs := ⟨tritsInt_inj hl', congrArg tritsInt⟩
      rw [tritsInt_cons_lt_iff, lowerAtMostSignificant_cons hl', ih hl', heq]

theorem tritsLt_iff {k : Nat} (a b : Trits k) :
    tritsLt a b = true ↔ tritsInt a.trits < tritsInt b.trits := decide_eq_true_iff

/-- Settles O6: a sequence is determined by its value, and the order by the most significant
difference. -/
theorem orderIsThatOfMostSignificantDifference :
    Obligations.OrderIsThatOfMostSignificantDifference := by
  rintro k ⟨as, rfl⟩ ⟨bs, hb⟩
  refine ⟨?_, tritsLt_iff _ _, (tritsLt_iff _ _).trans (tritsInt_lt_iff hb.symm)⟩
  rw [Trits.mk.injEq]
  exact ⟨congrArg tritsInt, tritsInt_inj hb.symm⟩

/-! ## Trytes -/

/-- A Word's trits are those of its Trytes (10_state.md R24). -/
theorem trits_eq_trytes (w : Word) :
    w.trits = (tryteOfWord w 0).trits ++ (tryteOfWord w 1).trits ++ (tryteOfWord w 2).trits := by
  have hlow : (tryteOfWord w 0).trits = w.trits.take 9 := rfl
  have hmid : (tryteOfWord w 1).trits = (w.trits.drop 9).take 9 := rfl
  have hhigh : (tryteOfWord w 2).trits = (w.trits.drop 9).drop 9 := by
    rw [List.drop_drop]
    exact List.take_of_length_le (by rw [List.length_drop, w.width]; decide)
  rw [hlow, hmid, hhigh, List.append_assoc, List.take_append_drop, List.take_append_drop]

/-- Settles O7: the value of three sequences put together. -/
theorem wordIsThreeTrytes : Obligations.WordIsThreeTrytes := by
  refine fun w => ⟨?_, trits_eq_trytes w⟩
  rw [intFromWord, trits_eq_trytes w, tritsInt_append, tritsInt_append, List.length_append,
    (tryteOfWord w 0).width, (tryteOfWord w 1).width]
  rfl

end Sys2Proof.SequenceProofs
end

section
/-! The statements of 41_adder_negation.md on sums and differences of Words (R112, R114, R116 to R118).
They rest on the congruence of a sum to the sum of the values modulo 3^27, and on a Word being determined
by its value modulo 3^27. -/
namespace Sys2Proof.SumProofs
open Sys2Proof Sys2Proof.Machine Sys2Proof.Machine.TritLaws Sys2Proof.Machine.AdderLaws
open Sys2Proof.AdderProofs Sys2Proof.ArithProofs

/-- Settles O9, by evaluation of the 27 rows. -/
theorem fullAdderTruthTable : Obligations.FullAdderTruthTable := by
  unfold Obligations.FullAdderTruthTable
  decide

/-! ## The value of a sum -/

/-- The range of a Word in figures (10_state.md R22). -/
theorem intFromWord_range (w : Word) :
    -3812798742493 ≤ intFromWord w ∧ intFromWord w ≤ 3812798742493 := intFromWord_bounds w

/-- A sum's value differs from the sum of the values by a multiple of 3^27, in figures. -/
theorem addWord_dvd_range (a b : Word) :
    (7625597484987 : Int) ∣ intFromWord a + intFromWord b - intFromWord (addWord a b) :=
  addWord_dvd a b

/-- The one representative in range of the sum's class is the sum's value (41_adder_negation.md R114). -/
theorem intFromWord_addWord_of_dvd {a b : Word} {v : Int} (hv : |v| ≤ 3812798742493)
    (h : (7625597484987 : Int) ∣ intFromWord a + intFromWord b - v) :
    intFromWord (addWord a b) = v := by
  obtain ⟨hlo, hhi⟩ := abs_le.mp hv
  have hsum := intFromWord_range (addWord a b)
  have hdvd := addWord_dvd_range a b
  omega

/-- The three cases of the wrap (41_adder_negation.md R114). -/
theorem intFromWord_addWord_cases (a b : Word) :
    intFromWord (addWord a b) =
      (if intFromWord a + intFromWord b > 3812798742493 then
        intFromWord a + intFromWord b - 7625597484987
      else if intFromWord a + intFromWord b < -3812798742493 then
        intFromWord a + intFromWord b + 7625597484987
      else intFromWord a + intFromWord b) := by
  have ha := intFromWord_range a
  have hb := intFromWord_range b
  apply intFromWord_addWord_of_dvd
  · rw [abs_le]
    split_ifs <;> omega
  · split_ifs <;> omega

theorem addWord_zero (a : Word) : addWord a Word.zero = a :=
  addWord_eq_of_dvd (by simp)

/-- The value of the sum of two integers' Words. -/
theorem intFromWord_addWord_wordOfInt (m n : Int) :
    intFromWord (addWord (wordOfInt m) (wordOfInt n)) = wrap27 (m + n) := by
  rw [addWord_wordOfInt, intFromWord_wordOfInt]

/-- Settles O11: the wrapped value, its three cases, and the representative in range; each corner case
is the wrap of a closed sum. -/
theorem addWrapsModuloThreePow27 : Obligations.AddWrapsModuloThreePow27 := by
  refine ⟨fun a b => ⟨intFromWord_addWord a b, intFromWord_addWord_cases a b⟩,
    fun a b v => intFromWord_addWord_of_dvd, ?_, ?_, ?_, ?_, addWord_zero⟩
  · exact intFromWord_addWord_wordOfInt 3812798742493 1
  · exact intFromWord_addWord_wordOfInt 3812798742493 3812798742493
  · exact intFromWord_addWord_wordOfInt (-3812798742493) (-3812798742493)
  · exact intFromWord_addWord_wordOfInt (-3812798742493) (-1)

/-! ## The group of Words under add -/

theorem addWord_comm (a b : Word) : addWord a b = addWord b a := by
  apply addWord_eq_of_dvd
  rw [add_comm]
  exact addWord_dvd b a

theorem addWord_assoc (a b c : Word) : addWord (addWord a b) c = addWord a (addWord b c) := by
  apply addWord_eq_of_dvd
  obtain ⟨x, hx⟩ := addWord_dvd a b
  obtain ⟨y, hy⟩ := addWord_dvd b c
  obtain ⟨z, hz⟩ := addWord_dvd a (addWord b c)
  exact ⟨y + z - x, by linear_combination hy + hz - hx⟩

/-- Settles O12, each law from the congruence of sums. -/
theorem wordsUnderAddFormCommutativeGroup : Obligations.WordsUnderAddFormCommutativeGroup :=
  fun a b c => ⟨addWord_comm a b, addWord_assoc a b c, addWord_zero a, addWord_negateWord a,
    addWord_dvd_range a b⟩

/-! ## Subtraction -/

/-- The value of the difference of two integers' Words. -/
theorem intFromWord_subtractWord_wordOfInt (m n : Int) :
    intFromWord (subtractWord (wordOfInt m) (wordOfInt n)) = wrap27 (m - n) := by
  rw [subtractWord, negateWord_wordOfInt, intFromWord_addWord_wordOfInt, Int.sub_eq_add_neg]

/-- Settles O14: the value of a difference; each corner case is the wrap of a closed difference. -/
theorem subtractIsAddOfNegation : Obligations.SubtractIsAddOfNegation := by
  refine ⟨fun a b => ⟨rfl, intFromWord_subtractWord a b, subtractWord_self a,
    subtractWord_zero_left b⟩, ?_, ?_, ?_, ?_⟩
  · exact intFromWord_subtractWord_wordOfInt (-3812798742493) 1
  · exact intFromWord_subtractWord_wordOfInt 3812798742493 (-3812798742493)
  · exact intFromWord_subtractWord_wordOfInt (-3812798742493) 3812798742493
  · exact intFromWord_subtractWord_wordOfInt 0 3812798742493

/-! ## The dropped carry -/

/-- The dropped carry makes up the difference (41_adder_negation.md R118). -/
theorem sum_eq_addWord_add_droppedCarry (a b : Word) :
    intFromWord a + intFromWord b =
      intFromWord (addWord a b) + 7625597484987 * tritValue (droppedCarry a b) := by
  have h := addChain_sum .zero a.trits b.trits (a.width.trans b.width.symm)
  rw [a.width, tritValue, add_zero] at h
  exact h.symm

theorem eq_pos_iff (t : Trit) : t = .pos ↔ tritValue t = 1 := by
  cases t <;> decide

theorem eq_neg_iff (t : Trit) : t = .neg ↔ tritValue t = -1 := by
  cases t <;> decide

/-- Settles O15: the difference that the carry makes up, and the range of a sum. -/
theorem droppedCarryTellsOverflow : Obligations.DroppedCarryTellsOverflow := by
  intro a b
  have hdiff := sum_eq_addWord_add_droppedCarry a b
  have hsum := intFromWord_range (addWord a b)
  have hcarry := tritValue_bounds (droppedCarry a b)
  refine ⟨hdiff, ?_, ?_⟩
  · rw [eq_pos_iff]
    omega
  · rw [eq_neg_iff]
    omega

end Sys2Proof.SumProofs
end

section
/-! The statements on the register file (10_state.md R26, R27), the bounds check (20_memory.md R42), SUBI
(44_arith_instructions.md R173) and the memory instructions (45_memory_instructions.md R180 to R182). -/
namespace Sys2Proof.LoadStoreProofs
open Sys2Proof Sys2Proof.Machine Sys2Proof.Machine.StateLaws Sys2Proof.Machine.StepLaws
open Sys2Proof.Machine.AdderLaws Sys2Proof.Machine.TritLaws
open Sys2Proof.MemoryProofs Sys2Proof.AdderProofs Sys2Proof.CodecProofs Sys2Proof.ArithProofs
open Sys2Proof.EffectProofs Sys2Proof.SumProofs

/-! ## Registers and addresses -/

/-- Settles O26, from what a register reads after a write. -/
theorem registerFileReadsBackAndHardZero : Obligations.RegisterFileReadsBackAndHardZero := by
  refine ⟨fun s i v hlo hhi => ?_, fun s v => ?_⟩
  · exact ⟨setReg_reg_same s i v hlo hhi, fun r _ hr => setReg_reg_other s i r v hr, fun _ => rfl,
      ⟨rfl, rfl, rfl, rfl⟩, rfl⟩
  · exact ⟨reg_zero s, setReg_discarded s 0 v (.inl le_rfl)⟩

/-- Settles O28: the definition of the bounds check. -/
theorem validAddressesAreThoseBelowMemSize : Obligations.ValidAddressesAreThoseBelowMemSize :=
  validAddr_iff

/-- The bounds check fails at a negative address and from `MEM_SIZE` on (20_memory.md R42). -/
theorem validAddr_eq_false_iff (s : State) (a : Int) :
    s.validAddr a = false ↔ a < 0 ∨ (s.cfg.memSize : Int) ≤ a := by
  rw [← Bool.not_eq_true, validAddr_iff]
  omega

/-- An effective address is the wrapped sum (45_memory_instructions.md R180). -/
theorem ea_eq_wrap27 (s : State) (a : Int) {n : Int} (hn : immInRange n) :
    s.ea a n = wrap27 (intFromWord (s.reg a) + n) := by
  rw [State.ea, intFromWord_addWord, intFromWord_immWord hn]

/-- An effective address from R0 is the immediate (45_memory_instructions.md R180). -/
theorem ea_r0 (s : State) {n : Int} (hn : immInRange n) : s.ea 0 n = n := by
  rw [State.ea, reg_zero, addWord_comm, addWord_zero, intFromWord_immWord hn]

/-- An effective address with no offset is the register's value (45_memory_instructions.md R180). -/
theorem ea_no_offset (s : State) (a : Int) : s.ea a 0 = intFromWord (s.reg a) := by
  rw [State.ea, show immWord 0 = Word.zero from rfl, addWord_zero]

/-- Settles O33: the value of a sum, with the zero Word on either side too. -/
theorem effectiveAddressWraps : Obligations.EffectiveAddressWraps := by
  refine fun s a n _ hn => ⟨ea_eq_wrap27 s a hn, abs_le.mpr (ea_bounds s a n), ?_, ?_⟩
  · rintro rfl
    exact ea_r0 s hn
  · rintro rfl
    exact ea_no_offset s a

/-! ## SUBI -/

theorem exec_subi (d a b n : Int) (s : State) :
    exec (.subi d a b n) s = .next (s.finish d (subtractWord (s.reg a) (immWord n))) := rfl

/-- `SUBI Rd,Rs,n` equals `ADDI Rd,Rs,-n` (44_arith_instructions.md R173). -/
theorem exec_addi_neg (d a b n : Int) (s : State) :
    exec (.addi d a b (-n)) s = exec (.subi d a b n) s := by
  have hneg : negateWord (immWord n) = immWord (-n) := negateWord_wordOfInt n
  rw [exec_subi, exec_addi, subtractWord, hneg]

/-- Settles O32: the value of a difference, where the immediate's Word has the immediate's value. -/
theorem subiResultAndFrame : Obligations.SubiResultAndFrame := by
  refine ⟨fun d a b n s hi => ?_, rfl, encode_eq_wordFromInt defaultMap_wf (by decide)⟩
  obtain ⟨(hdest : regInRange d), -, -, (himm : immInRange n)⟩ := hi
  refine ⟨_, exec_subi d a b n s, exec_addi_neg d a b n s, fun h0 => ?_, finish_frame s d _⟩
  rw [finish_reg_dest hdest h0, intFromWord_subtractWord, intFromWord_immWord himm]
  exact ⟨⟨immWord n, wordFromInt_imm himm, rfl⟩, rfl⟩

/-! ## LDW and STW, at a valid address and at any other -/

theorem exec_ldw_of_valid (d b : Int) {a n : Int} {s : State} (h : s.validAddr (s.ea a n) = true) :
    exec (.ldw d a b n) s = .next (s.finish d (s.memRead (s.ea a n).toNat)) :=
  (execLdw_eq d a n s).trans (by rw [if_pos h])

theorem exec_ldw_of_invalid (d b : Int) {a n : Int} {s : State}
    (h : s.validAddr (s.ea a n) = false) :
    exec (.ldw d a b n) s = .next (s.raise .memoryFault) :=
  (execLdw_eq d a n s).trans (by rw [if_neg (Bool.eq_false_iff.mp h)])

theorem exec_stw_of_valid (d b : Int) {a n : Int} {s : State} (h : s.validAddr (s.ea a n) = true) :
    exec (.stw d a b n) s = .next (s.memWrite (s.ea a n).toNat (s.reg b)).advance :=
  (execStw_eq a b n s).trans (by rw [if_pos h])

theorem exec_stw_of_invalid (d b : Int) {a n : Int} {s : State}
    (h : s.validAddr (s.ea a n) = false) :
    exec (.stw d a b n) s = .next (s.raise .memoryFault) :=
  (execStw_eq a b n s).trans (by rw [if_neg (Bool.eq_false_iff.mp h)])

/-- Settles O34, by the bounds check; a completed load ends as the arithmetic instructions do. -/
theorem ldwLoadsOrFaults : Obligations.LdwLoadsOrFaults := by
  refine ⟨fun d a b n s hi hlo hhi => ?_, fun d a b n s hi hbad => ?_, rfl,
    encode_eq_wordFromInt defaultMap_wf (by decide)⟩
  · obtain ⟨(hdest : regInRange d), -, -, (himm : immInRange n)⟩ := hi
    rw [← ea_eq_wrap27 s a himm] at hlo hhi ⊢
    exact ⟨_, exec_ldw_of_valid d b ((validAddr_iff s _).mpr ⟨hlo, hhi⟩), finish_reg_dest hdest,
      finish_frame s d _⟩
  · obtain ⟨-, -, -, (himm : immInRange n)⟩ := hi
    rw [← ea_eq_wrap27 s a himm, ← validAddr_eq_false_iff] at hbad
    exact ⟨_, exec_ldw_of_invalid d b hbad, faultsTo_raise s _⟩

/-- Settles O35, by the bounds check and what memory reads after a write. -/
theorem stwStoresOrFaults : Obligations.StwStoresOrFaults := by
  refine ⟨fun d a b n s hi => ?_, rfl, encode_eq_wordFromInt defaultMap_wf (by decide)⟩
  obtain ⟨-, -, -, (himm : immInRange n)⟩ := hi
  refine ⟨ea_eq_wrap27 s a himm, fun hlo hhi => ?_, fun hbad => ?_⟩
  · have hother (x : Nat) (hx : (x : Int) ≠ s.ea a n) : x ≠ (s.ea a n).toNat := by omega
    exact ⟨_, exec_stw_of_valid d b ((validAddr_iff s _).mpr ⟨hlo, hhi⟩),
      memWrite_memRead_same s _ _, fun x hx => memWrite_memRead_other s _ (hother x hx),
      fun _ _ => rfl, rfl, rfl, rfl, rfl, rfl⟩
  · exact ⟨_, exec_stw_of_invalid d b ((validAddr_eq_false_iff s _).mpr hbad), faultsTo_raise s _⟩

/-- The fetch depends on memory, the parameters and `pc` alone (43_fde_engine.md R152). -/
theorem fetch_of_valid {u : State} (h : u.validAddr u.pc = true) :
    u.fetch = some (u.mem.read u.pc.toNat) :=
  (fetch_eq_some u _).mpr ⟨h, rfl⟩

/-- Settles O36: the fetch reads the memory that the store wrote. -/
theorem storeIsSeenByLaterFetch : Obligations.StoreIsSeenByLaterFetch := by
  intro d a b n s _ hlo hhi
  refine ⟨_, exec_stw_of_valid d b ((validAddr_iff s _).mpr ⟨hlo, hhi⟩), fun u hmem hcfg hpc => ?_⟩
  have hvalid : u.validAddr u.pc = true := by
    rw [validAddr_iff, hpc, hcfg]
    exact ⟨hlo, hhi⟩
  rw [fetch_of_valid hvalid, hmem, hpc]
  exact congrArg some (memWrite_memRead_same s _ _)

end Sys2Proof.LoadStoreProofs
end

section
/-! The statements of 46_control_instructions.md (R191 to R195), and that a meaning reads the used
components alone (30_encoding.md R67). -/
namespace Sys2Proof.ControlProofs
open Sys2Proof Sys2Proof.Machine Sys2Proof.Machine.StateLaws Sys2Proof.Machine.StepLaws
open Sys2Proof.CodecProofs Sys2Proof.ArithProofs Sys2Proof.EffectProofs
open Sys2Proof.SequenceProofs Sys2Proof.LoadStoreProofs

/-- Settles O25: each arm of the dispatch passes on the components that the listings keep. -/
theorem executionIgnoresUnusedFields : Obligations.ExecutionIgnoresUnusedFields := by
  intro i s
  cases i <;> rfl

/-- A target is checked by the next fetch, whatever the state it is left in
(46_control_instructions.md R190). -/
theorem nextFetchFaults (t : State) : t.nextFetchFaultsIfInvalid := by
  intro hh hbad
  have hfetch : t.fetch = none := (fetch_eq_none t).mpr ((validAddr_eq_false_iff t _).mpr hbad)
  exact ⟨_, step_of_no_fetch hh hfetch, faultsTo_raise t _⟩

/-! ## JMP -/

theorem exec_jmp (d a b n : Int) (s : State) :
    exec (.jmp d a b n) s = .next (s.setPc (s.ea a n)) := rfl

/-- A jump to its own address changes nothing (46_control_instructions.md R191). -/
theorem setPc_self {s : State} {t : Int} (h : t = s.pc) : s.setPc t = s := by
  rw [h]
  rfl

/-- Settles O37: the target's value, and the frame of a write to `pc`. -/
theorem jmpSetsTarget : Obligations.JmpSetsTarget := by
  refine ⟨fun d a b n s hi => ?_, rfl, encode_eq_wordFromInt defaultMap_wf (by decide),
    encode_eq_wordFromInt defaultMap_wf (by decide)⟩
  obtain ⟨-, -, -, (himm : immInRange n)⟩ := hi
  refine ⟨_, exec_jmp d a b n s, ⟨_, wordFromInt_imm himm, rfl⟩, ea_eq_wrap27 s a himm, ?_,
    fun _ _ => rfl, fun _ => rfl, ⟨rfl, rfl, rfl, rfl⟩, setPc_self, nextFetchFaults _⟩
  rintro rfl
  exact ea_r0 s himm

/-! ## CALL and RET -/

theorem exec_call_of_room (d b : Int) {s : State} (a n : Int) (h : s.depth < s.cfg.stackDepth) :
    exec (.call d a b n) s = .next ((s.push (s.pc + 1)).setPc (s.ea a n)) :=
  (execCall_eq a n s).trans (by rw [if_pos h])

theorem exec_call_of_full (d b : Int) {s : State} (a n : Int) (h : s.cfg.stackDepth ≤ s.depth) :
    exec (.call d a b n) s = .next (s.raise .stackFault) :=
  (execCall_eq a n s).trans (by rw [if_neg h.not_gt])

theorem exec_ret_of_cons (d a b n : Int) {s : State} {v : Int} {vs : List Int}
    (h : s.stack = v :: vs) : exec (.ret d a b n) s = .next (s.dropTop.setPc v) :=
  (execRet_eq s).trans (by rw [h])

theorem exec_ret_of_empty (d a b n : Int) {s : State} (h : s.stack = []) :
    exec (.ret d a b n) s = .next (s.raise .stackFault) :=
  (execRet_eq s).trans (by rw [h])

/-- Settles O38, by the capacity of the call stack. -/
theorem callPushesOrFaults : Obligations.CallPushesOrFaults := by
  refine ⟨fun d a b n s hi => ?_, rfl, encode_eq_wordFromInt defaultMap_wf (by decide)⟩
  obtain ⟨-, -, -, (himm : immInRange n)⟩ := hi
  refine ⟨fun hroom => ?_, fun hfull => ?_⟩
  · exact ⟨_, exec_call_of_room d b a n hroom, rfl, ea_eq_wrap27 s a himm, fun _ _ => rfl,
      fun _ => rfl, rfl, rfl, rfl, nextFetchFaults _⟩
  · exact ⟨_, exec_call_of_full d b a n hfull, faultsTo_raise s _⟩

/-- Settles O39, by whether the call stack is empty. -/
theorem retPopsOrFaults : Obligations.RetPopsOrFaults := by
  refine ⟨fun d a b n s _ => ⟨fun v vs hstack => ?_, fun hempty => ?_⟩, rfl,
    encode_eq_wordFromInt defaultMap_wf (by decide)⟩
  · have hrest : s.stack.tail = vs := by rw [hstack, List.tail_cons]
    exact ⟨_, exec_ret_of_cons d a b n hstack, rfl, hrest, fun _ _ => rfl, fun _ => rfl, rfl, rfl,
      rfl, nextFetchFaults _⟩
  · exact ⟨_, exec_ret_of_empty d a b n hempty, faultsTo_raise s _⟩

/-- Settles O42: RET pops what CALL pushed. -/
theorem returnResumesAfterCall : Obligations.ReturnResumesAfterCall := by
  intro d a b n d' a' b' n' s hroom
  refine ⟨_, exec_call_of_room d b a n hroom, fun u hu => ?_⟩
  have hstack : u.stack = (s.pc + 1) :: s.stack := hu
  exact ⟨_, exec_ret_of_cons d' a' b' n' hstack, rfl, by
    rw [setPc_stack, dropTop_stack, hstack, List.tail_cons]⟩

/-! ## BRZ and HALT -/

/-- The zero test is that all trits are 0 (46_control_instructions.md R194). -/
theorem intFromWord_eq_zero_iff (w : Word) : intFromWord w = 0 ↔ ∀ x ∈ w.trits, x = .zero := by
  rw [← tritsInt_eq_extreme_iff, tritValue, zero_mul, intFromWord]

theorem exec_brz_of_zero (d b n : Int) {a : Int} {s : State} (h : intFromWord (s.reg a) = 0) :
    exec (.brz d a b n) s = .next (s.setPc n) :=
  (execBrz_eq a n s).trans (by rw [if_pos h])

theorem exec_brz_of_nonzero (d b n : Int) {a : Int} {s : State} (h : intFromWord (s.reg a) ≠ 0) :
    exec (.brz d a b n) s = .next s.advance :=
  (execBrz_eq a n s).trans (by rw [if_neg h])

/-- Settles O40, by the zero test. -/
theorem brzBranchesOnZero : Obligations.BrzBranchesOnZero := by
  refine ⟨fun d a b n s _ => ?_, rfl, encode_eq_wordFromInt defaultMap_wf (by decide)⟩
  by_cases hzero : intFromWord (s.reg a) = 0
  · exact ⟨_, exec_brz_of_zero d b n hzero, intFromWord_eq_zero_iff _, fun _ => rfl,
      fun h => absurd hzero h, fun _ => rfl, fun _ _ => rfl, fun _ => rfl, ⟨rfl, rfl, rfl, rfl⟩,
      nextFetchFaults _⟩
  · have hr0 : a ≠ 0 := by
      rintro rfl
      exact hzero TritLaws.intFromWord_zero
    exact ⟨_, exec_brz_of_nonzero d b n hzero, intFromWord_eq_zero_iff _, fun h => absurd h hzero,
      fun _ => rfl, fun h => absurd h hr0, fun _ _ => rfl, fun _ => rfl, ⟨rfl, rfl, rfl, rfl⟩,
      nextFetchFaults _⟩

/-- Settles O41: the frame of setting `halted`, and the step of a HALTED CPU. -/
theorem haltSetsHaltedOnly : Obligations.HaltSetsHaltedOnly := by
  refine ⟨fun d a b n s _ => ?_, rfl, encode_eq_wordFromInt defaultMap_wf (by decide)⟩
  have hexec : exec (.halt d a b n) s = .next s.halt := rfl
  exact ⟨_, hexec, rfl, rfl, rfl, rfl, rfl, fun _ _ => rfl, fun _ => rfl, step_of_halted rfl⟩

end Sys2Proof.ControlProofs
end

section
/-! The statements of 43_fde_engine.md on the step (R151 to R158), of 60_exceptions.md on faults (R211 to
R218), and on which instruction writes what (10_state.md R28, R31, R32, 20_memory.md R47). -/
namespace Sys2Proof.EngineProofs
open Sys2Proof Sys2Proof.Machine Sys2Proof.Machine.StateLaws Sys2Proof.Machine.MemoryLaws
open Sys2Proof.Machine.StepLaws Sys2Proof.Machine.RunLaws Sys2Proof.Machine.CodecLaws
open Sys2Proof.CodecProofs Sys2Proof.ArithProofs Sys2Proof.MemoryProofs
open Sys2Proof.EffectProofs Sys2Proof.LoadStoreProofs

/-! ## The stages of a step -/

theorem fetch_of_range {s : State} (hlo : 0 ≤ s.pc) (hhi : s.pc < (s.cfg.memSize : Int)) :
    s.fetch = some (s.memRead s.pc.toNat) :=
  fetch_of_valid ((validAddr_iff s s.pc).mpr ⟨hlo, hhi⟩)

/-- Settles O43: the step of a decoded instruction, and the range of what `decode` answers. -/
theorem stepRunsDecodedInstruction : Obligations.StepRunsDecodedInstruction :=
  fun _ _ hh hlo hhi hd => ⟨decode_wellFormed hd, step_of_decode hh (fetch_of_range hlo hhi) hd⟩

/-- Settles O44, by the bounds check of the fetch. -/
theorem fetchReadsMemoryOrFaults : Obligations.FetchReadsMemoryOrFaults := by
  refine ⟨fun s => fetch_of_range, fun s hh hbad => ?_⟩
  have hfetch : s.fetch = none := (fetch_eq_none s).mpr ((validAddr_eq_false_iff s _).mpr hbad)
  refine ⟨_, step_of_no_fetch hh hfetch, faultsTo_raise s _, ?_⟩
  rw [raise_fault, State.record, hfetch]

/-- Settles O45: a Word with no mnemonic does not decode. -/
theorem undefinedOpcodeFaults : Obligations.UndefinedOpcodeFaults := by
  intro s hh hlo hhi hundef
  have hfetch := fetch_of_range hlo hhi
  refine ⟨_, step_of_no_decode hh hfetch (decode_of_undefined hundef), faultsTo_raise s _, ?_⟩
  rw [raise_fault, State.record, hfetch]

/-- A step that reports a record is a fault that a RUNNING CPU takes, not at a HALT, and the record is
that of the fault (60_exceptions.md R217). -/
theorem report_eq_some {s : State} {r : FaultRecord} (h : report s = some r) :
    ∃ k, s.halted = false ∧ ¬ AtHalt s ∧ step s = .next (s.raise k) ∧ s.record k = r := by
  rcases report_cases s with ⟨_, -, -, -, hnone⟩ | ⟨k, hh, hnot, hstep, hsome⟩
  · rw [hnone] at h
    cases h
  · exact ⟨k, hh, hnot, hstep, Option.some.inj (hsome.symm.trans h)⟩

theorem report_of_halted {s : State} (hh : s.halted = true) : report s = none := by
  rcases report_cases s with ⟨_, -, -, -, hnone⟩ | ⟨_, hrunning, -⟩
  · exact hnone
  · rw [hh] at hrunning
    cases hrunning

/-- Settles O46: the step of a HALTED CPU, and the report of one. -/
theorem haltedStepChangesNothing : Obligations.HaltedStepChangesNothing :=
  fun _ hh => ⟨step_of_halted hh, report_of_halted hh⟩

/-- Settles O47: a step and a meaning each have an effect, on a next state. -/
theorem everyStepHasNextState : Obligations.EveryStepHasNextState :=
  ⟨fun s => (step_has_effect s).imp fun _ h => h.1,
    fun i s => (exec_has_effect i s).imp fun _ h => h.1⟩

/-! ## Faults and their causes -/

/-- Settles O48: a reported record is that of the fault taken. -/
theorem faultsArePrecise : Obligations.FaultsArePrecise := by
  intro s t r hstep hreport
  obtain ⟨k, hh, -, hraise, rfl⟩ := report_eq_some hreport
  obtain rfl : s.raise k = t := next_inj (hraise.symm.trans hstep)
  exact ⟨rfl, rfl, rfl, hh⟩

/-- A state after a fault tells the kind of the fault. -/
theorem raise_inj {s : State} {k k' : Fault} (h : s.raise k = s.raise k') : k = k' := by
  have hrecord := congrArg State.fault h
  rw [raise_fault, raise_fault] at hrecord
  exact congrArg FaultRecord.kind (Option.some.inj hrecord)

/-- On a RUNNING CPU, what an instruction other than HALT makes into a fault has a cause: no other effect
sets the halted flag. -/
theorem faultCause_of_effect {i : Instr} {s : State} {k : Fault} (hh : s.halted = false)
    (hnot : i.mnemonic ≠ .halt) (he : Effect i s (s.raise k)) : FaultCause i s k := by
  generalize ht : s.raise k = t at he
  have hhalted : t.halted = true := by rw [← ht, raise_halted]
  cases he with
  | fault k' hc => rwa [raise_inj ht]
  | halt hi => exact absurd hi hnot
  | _ => exact absurd (hh.symm.trans hhalted) Bool.false_ne_true

/-- A Word that does not decode has an undefined opcode (30_encoding.md R76). -/
theorem undefined_of_decode_error {m : OpMap} {w : Word} {e : ErrorKind}
    (h : decode m w = .error e) : ∀ k, opcodeField w ≠ m.raw k := by
  cases hm : m.mnemonicOf (opcodeField w) with
  | none => exact fun k => (mnemonicOf_none.mp hm k).symm
  | some k =>
    rw [decode, hm] at h
    cases h

/-- The three stages in which a step can fault (60_exceptions.md R215). -/
theorem stage_of_fault {s : State} {k : Fault} (hh : s.halted = false) (hnot : ¬ AtHalt s)
    (he : StepEffect s (s.raise k)) :
    (k = .memoryFault ∧ s.fetch = none) ∨
    (k = .decodeError ∧ ∃ w, s.fetch = some w ∧ ∀ m, opcodeField w ≠ s.cfg.opmap.raw m) ∨
    ∃ w i, s.fetch = some w ∧ decode s.cfg.opmap w = .ok i ∧ FaultCause i s k := by
  generalize ht : s.raise k = t at he
  cases he with
  | halted htrue => exact absurd (hh.symm.trans htrue) Bool.false_ne_true
  | noFetch _ hf => exact .inl ⟨raise_inj ht, hf⟩
  | noDecode w e _ hf hd => exact .inr (.inl ⟨raise_inj ht, w, hf, undefined_of_decode_error hd⟩)
  | runs w i t _ hf hd he =>
    subst ht
    have hi : i.mnemonic ≠ .halt := fun hm => hnot ⟨w, i, hf, hd, hm⟩
    exact .inr (.inr ⟨w, i, hf, hd, faultCause_of_effect hh hi he⟩)

/-- Settles O49, by the stage in which the step faults, and the cause of a meaning's fault. -/
theorem faultKindsHaveTheirCauses : Obligations.FaultKindsHaveTheirCauses := by
  intro s r hstack hreport
  obtain ⟨k, hh, hnot, hstep, rfl⟩ := report_eq_some hreport
  rcases stage_of_fault hh hnot (stepEffect_of_step hstep) with
    ⟨rfl, hf⟩ | ⟨rfl, hundef⟩ | ⟨w, i, hf, hd, hcause⟩
  · exact .inl hf
  · exact hundef
  · cases hcause with
    | badAddress hi ha =>
      exact .inr ⟨w, i, hf, hd, by simpa using hi, (validAddr_eq_false_iff s _).mp ha⟩
    | stackFull hi hfull =>
      exact ⟨w, i, hf, hd, .inl ⟨hi, le_antisymm hstack.1 hfull⟩⟩
    | stackEmpty hi hempty =>
      exact ⟨w, i, hf, hd, .inr ⟨hi, by rw [State.depth, hempty, List.length_nil]⟩⟩

/-! ## What a step writes -/

/-- Settles O50, by the effect of the decoded instruction. -/
theorem stepWritesAtMostOnePart : Obligations.StepWritesAtMostOnePart := by
  intro s t hh hstep
  cases stepEffect_of_step hstep with
  | halted htrue => exact absurd (hh.symm.trans htrue) Bool.false_ne_true
  | noFetch => exact .inl ⟨_, faultsTo_raise s _⟩
  | noDecode => exact .inl ⟨_, faultsTo_raise s _⟩
  | runs w i t _ hf hd he =>
    cases he with
    | fault k => exact .inl ⟨k, faultsTo_raise s k⟩
    | result v hi =>
      refine .inr ⟨w, i, hf, hd, rfl, rfl, ?_⟩
      simp only [List.mem_cons, List.not_mem_nil, or_false] at hi
      rcases hi with hi | hi | hi | hi | hi
      all_goals
        rw [hi]
        exact ⟨finish_keepsRegsBut s _ v, rfl, fun _ => rfl, rfl, hh, rfl⟩
    | store hi ha =>
      refine .inr ⟨w, i, hf, hd, rfl, rfl, ?_⟩
      obtain ⟨hlo, hhi⟩ := (validAddr_iff s _).mp ha
      rw [hi]
      exact ⟨fun _ _ => rfl, fun x hx => memWrite_memRead_other s _ (by omega), hlo, hhi, rfl, hh,
        rfl⟩
    | jump hi | branch hi | fallThrough hi =>
      refine .inr ⟨w, i, hf, hd, rfl, rfl, ?_⟩
      rw [hi]
      exact ⟨fun _ _ => rfl, fun _ => rfl, rfl, hh⟩
    | call hi | ret _ _ hi =>
      refine .inr ⟨w, i, hf, hd, rfl, rfl, ?_⟩
      rw [hi]
      exact ⟨fun _ _ => rfl, fun _ => rfl, hh⟩
    | halt hi =>
      refine .inr ⟨w, i, hf, hd, rfl, rfl, ?_⟩
      rw [hi]
      exact ⟨fun _ _ => rfl, fun _ => rfl, rfl, rfl, rfl⟩

/-- A register changes only as the `dest` of a result (10_state.md R28). -/
theorem effect_of_reg_ne {i : Instr} {s t : State} (he : Effect i s t) {r : Int}
    (h : t.reg r ≠ s.reg r) :
    i.mnemonic ∈ [.add, .addi, .sub, .subi, .ldw] ∧ r = i.dest ∧ r ≠ 0 := by
  cases he with
  | result v hi =>
    rw [finish_reg] at h
    obtain ⟨rfl, hlo, -⟩ : r = i.dest ∧ 1 ≤ i.dest ∧ i.dest ≤ 26 :=
      by_contra fun hother => h (if_neg hother)
    exact ⟨hi, rfl, by omega⟩
  | _ => exact absurd rfl h

/-- Memory changes only at the effective address of a store (20_memory.md R47). -/
theorem effect_of_memRead_ne {i : Instr} {s t : State} (he : Effect i s t) {x : Nat}
    (h : t.memRead x ≠ s.memRead x) : i.mnemonic = .stw ∧ (x : Int) = s.ea i.src1 i.imm := by
  cases he with
  | store hi ha =>
    obtain ⟨hlo, -⟩ := (validAddr_iff s _).mp ha
    have hx : x = (s.ea i.src1 i.imm).toNat :=
      by_contra fun hother => h (memWrite_memRead_other s _ hother)
    exact ⟨hi, by omega⟩
  | _ => exact absurd rfl h

/-- The call stack changes only in CALL and RET (10_state.md R31). -/
theorem effect_of_stack_ne {i : Instr} {s t : State} (he : Effect i s t) (h : t.stack ≠ s.stack) :
    i.mnemonic = .call ∨ i.mnemonic = .ret := by
  cases he with
  | call hi => exact .inl hi
  | ret v vs hi => exact .inr hi
  | _ => exact absurd rfl h

/-- The halted flag changes only in HALT and by a fault with its cause (10_state.md R32). -/
theorem effect_of_halted_ne {i : Instr} {s t : State} (he : Effect i s t)
    (h : t.halted ≠ s.halted) :
    i.mnemonic = .halt ∨ (i.mnemonic ∈ [.ldw, .stw] ∧ s.faultsTo t .memoryFault) ∨
      (i.mnemonic ∈ [.call, .ret] ∧ s.faultsTo t .stackFault) := by
  cases he with
  | halt hi => exact .inl hi
  | fault k hc =>
    have hfaults := faultsTo_raise s k
    cases hc with
    | badAddress hi => exact .inr (.inl ⟨hi, hfaults⟩)
    | stackFull hi => exact .inr (.inr ⟨by simp [hi], hfaults⟩)
    | stackEmpty hi => exact .inr (.inr ⟨by simp [hi], hfaults⟩)
  | _ => exact absurd rfl h

/-- Settles O51, one part of the state at a time. -/
theorem onlyNamedInstructionsWriteEachPart : Obligations.OnlyNamedInstructionsWriteEachPart := by
  intro i s t h
  have he := effect_of_exec h
  exact ⟨fun _ => effect_of_reg_ne he, fun _ => effect_of_memRead_ne he, effect_of_stack_ne he,
    effect_of_halted_ne he⟩

/-! ## Halting -/

/-- A step that halts a RUNNING CPU runs HALT, which reports nothing and leaves the latch alone, or takes
a fault, which reports the record that it latches (60_exceptions.md R217). -/
theorem halting_step {s t : State} (hh : s.halted = false) (hstep : step s = .next t)
    (ht : t.halted = true) :
    (AtHalt s ∧ report s = none ∧ t.fault = s.fault) ∨
    (¬ AtHalt s ∧ ∃ r, report s = some r ∧ t.fault = some r) := by
  rcases report_cases s with ⟨u, hu, hlatch, hflag, hreport⟩ | ⟨k, -, hnot, hu, hreport⟩
  · obtain rfl : u = t := next_inj (hu.symm.trans hstep)
    rcases hflag with hsame | hat
    · exact absurd (hh.symm.trans (hsame.symm.trans ht)) Bool.false_ne_true
    · exact .inl ⟨hat, hreport, hlatch⟩
  · obtain rfl : s.raise k = t := next_inj (hu.symm.trans hstep)
    exact .inr ⟨hnot, _, hreport, raise_fault s k⟩

/-- The first of `k + 1` steps of the host's run, on any machine. -/
theorem host_run_succ (M : Host.Core) {s t : M.State} (k : Nat) (h : M.step s = .next t) :
    M.run (k + 1) s = M.run k t := by
  rw [Host.Core.run, h]

theorem core_run_succ {s t : State} (k : Nat) (h : step s = .next t) :
    Sys2Proof.core.run (k + 1) s = Sys2Proof.core.run k t :=
  host_run_succ Sys2Proof.core k h

/-- HALTED is terminal (60_exceptions.md R218). -/
theorem core_run_of_halted (k : Nat) {s : State} (hh : s.halted = true) :
    Sys2Proof.core.run k s = .next s := by
  induction k with
  | zero => rfl
  | succ k ih => rw [core_run_succ k (step_of_halted hh), ih]

/-- Settles O52, by the two ways in which a step halts. -/
theorem haltedOnlyByHaltOrFaultAndTerminal : Obligations.HaltedOnlyByHaltOrFaultAndTerminal := by
  refine ⟨fun s t hh hstep ht => ?_, fun k s => core_run_of_halted k⟩
  rcases halting_step hh hstep ht with ⟨⟨w, i, hf, hd, hi⟩, hreport, hlatch⟩ | ⟨-, hfault⟩
  · exact .inl ⟨w, i, hf, hd, hi, hreport, hlatch⟩
  · exact .inr hfault

end Sys2Proof.EngineProofs
end

section
/-! The statement on `run` (43_fde_engine.md R157, R159). -/
namespace Sys2Proof.RunProofs
open Sys2Proof Sys2Proof.Machine Sys2Proof.Machine.RunLaws
open Sys2Proof.EffectProofs Sys2Proof.EngineProofs

/-- Steps that end HALTED have a last one that halts the CPU, and `run` returns with its report
(43_fde_engine.md R157). -/
theorem run_of_core_run {n : Nat} {s t : State} (hh : s.halted = false)
    (hrun : Sys2Proof.core.run n s = .next t) (ht : t.halted = true) :
    ∃ k u, k < n ∧ Sys2Proof.core.run k s = .next u ∧ u.halted = false ∧ step u = .next t ∧
      run n s = some (t, report u) := by
  induction n generalizing s with
  | zero =>
    obtain rfl : s = t := next_inj hrun
    exact absurd (hh.symm.trans ht) Bool.false_ne_true
  | succ n ih =>
    obtain ⟨s', hstep, -⟩ := step_has_effect s
    rw [core_run_succ n hstep] at hrun
    rw [run_of_running n s s' hh hstep]
    cases hh' : s'.halted with
    | true =>
      obtain rfl : s' = t := next_inj ((core_run_of_halted n hh').symm.trans hrun)
      exact ⟨0, s, n.succ_pos, rfl, hh, hstep, if_pos rfl⟩
    | false =>
      obtain ⟨k, u, hk, hku, hu, hlast, hreturns⟩ := ih hh' hrun
      exact ⟨k + 1, u, Nat.succ_lt_succ hk, (core_run_succ k hstep).trans hku, hu, hlast, hreturns⟩

/-- What `run` returns is HALTED and is what the steps give, and more fuel does not change it
(43_fde_engine.md R157, R159). -/
theorem core_run_of_run {n : Nat} {s t : State} {r : Option FaultRecord}
    (hrun : run n s = some (t, r)) :
    t.halted = true ∧ Sys2Proof.core.run n s = .next t ∧ ∀ m, run (n + m) s = some (t, r) := by
  induction n generalizing s with
  | zero =>
    cases hh : s.halted with
    | true =>
      rw [run_of_halted 0 s hh] at hrun
      cases hrun
      exact ⟨hh, rfl, fun m => run_of_halted _ _ hh⟩
    | false => simp [run, hh] at hrun
  | succ n ih =>
    cases hh : s.halted with
    | true =>
      rw [run_of_halted _ s hh] at hrun
      cases hrun
      exact ⟨hh, core_run_of_halted _ hh, fun m => run_of_halted _ _ hh⟩
    | false =>
      obtain ⟨s', hstep, -⟩ := step_has_effect s
      have hmore (m : Nat) : run (n + 1 + m) s =
          if s'.halted then some (s', report s) else run (n + m) s' := by
        rw [Nat.add_right_comm]
        exact run_of_running (n + m) s s' hh hstep
      rw [run_of_running n s s' hh hstep] at hrun
      rw [core_run_succ n hstep]
      cases hh' : s'.halted with
      | true =>
        rw [if_pos hh'] at hrun
        cases hrun
        exact ⟨hh', core_run_of_halted n hh', fun m => (hmore m).trans (if_pos hh')⟩
      | false =>
        have hnot : ¬ s'.halted = true := Bool.eq_false_iff.mp hh'
        rw [if_neg hnot] at hrun
        obtain ⟨hend, hsteps, hfuel⟩ := ih hrun
        exact ⟨hend, hsteps, fun m => (hmore m).trans ((if_neg hnot).trans (hfuel m))⟩

/-- Settles O58: `run` and the iterated step agree, and the report of the step that halts. -/
theorem runIteratesStepUntilHalted : Obligations.RunIteratesStepUntilHalted := by
  refine ⟨run_of_halted, fun n s t => run_of_core_run, fun n s t r => core_run_of_run,
    fun u t hh hstep ht => ?_⟩
  rcases halting_step hh hstep ht with ⟨hat, hreport, -⟩ | ⟨hnot, r, hreport, hlatch⟩
  · refine ⟨iff_of_true hreport hat, fun r hr => ?_⟩
    rw [hreport] at hr
    cases hr
  · refine ⟨iff_of_false (by rw [hreport]; exact Option.some_ne_none r) hnot, fun r' hr' => ?_⟩
    rw [hlatch, ← hreport, hr']

end Sys2Proof.RunProofs
end
